-- ==== Sys2Proof/Word.lean ====
section
/-! DEFINITION. The word types of the chonkpu core: the 8-bit data word, the 16-bit instruction word and
the 4-bit field (00_scope.md R5). -/

namespace Sys2Proof

/-- An 8-bit data value: a register cell, a memory cell, a port byte, a data address, a ROM address
(00_scope.md R5, R11). -/
abbrev Byte := BitVec 8

/-- A 16-bit instruction word (30_encoding.md R70). -/
abbrev Word := BitVec 16

/-- A 4-bit field of an instruction word: the opcode, field A or field B (30_encoding.md R71). -/
abbrev Nibble := BitVec 4

end Sys2Proof
end

