-- ==== Sys2Proof/Config.lean ====
section
/-! DEFINITION. The fixed parameters of the core (00_scope.md R5). Every size is fixed by the spec and no value of
any instruction is left undefined, so there is no free value here. The spec notes that the source's literals are
unaudited and treats them as normative (92_eei_decisions.md D14; UNVERIFIED, unsafe if a literal is wrong, log 10). -/

namespace Sys2Proof.Config

/-- Number of ROM words (00_scope.md R5, 10_state.md R31). -/
abbrev romWords : Nat := 256

/-- First data address that is no longer in the I/O window 0..3 (20_memory.md R42). -/
abbrev ioLimit : Byte := 0x04#8

/-- Data address of RAM cell 0 (20_memory.md R42). -/
abbrev ramBase : Byte := 0xF0#8

/-- Number of RAM cells (10_state.md R30). -/
abbrev ramCells : Nat := 16

/-- What a RAM cell with no entry in the list reads as: every cell is 0 after reset (10_state.md R30, R39). -/
abbrev ramDefault : Byte := 0x00#8

/-- What a ROM word with no entry in the list reads as.
DESIGN CHOICE (log 2), unsafe: the spec has the host supply all 256 words (70_reset_and_hazards.md R172), so a word
nothing has supplied has no value of its own in the spec. -/
abbrev romDefault : Word := 0x0000#16

/-- The second register index the decoder forces in immediate forms (30_encoding.md R74). -/
abbrev forcedIndex : Nibble := 15#4

end Sys2Proof.Config
end

