-- ==== Sys2Proof/Syntax.lean ====
section
/-! DEFINITION. The instructions, one constructor per row of the opcode table (30_encoding.md R79). An `Instr` is the
decoder's descriptor (10_state.md R29): the constructor is its field `op`, the record it carries holds the other five
fields. -/

namespace Sys2Proof

/-- The descriptor without its field `op` (10_state.md R29). -/
structure Operands where
  /-- First register index, all 4 bits (30_encoding.md R72). -/
  ra : Nibble
  /-- Second register index; 15 in the immediate form (30_encoding.md R73, R74). -/
  rb : Nibble
  /-- Immediate value; 0 in the register form (30_encoding.md R73, R74). -/
  imm : Byte
  /-- Whether v1 is read through `ra` or through index 0 (30_encoding.md R75, 40_pipeline.md R93). -/
  readFirst : Bool
  /-- Whether the result is written back (30_encoding.md R76, 40_pipeline.md R98). -/
  writeBack : Bool
deriving DecidableEq, Repr

/-- The 16 instructions (30_encoding.md R79). -/
inductive Instr where
  | ld (d : Operands)
  | st (d : Operands)
  | ldx (d : Operands)
  | stx (d : Operands)
  | rsv4 (d : Operands)
  | jmp (d : Operands)
  | bnn (d : Operands)
  | jr (d : Operands)
  | add (d : Operands)
  | nor (d : Operands)
  | addi (d : Operands)
  | nori (d : Operands)
  | addh (d : Operands)
  | norh (d : Operands)
  | addih (d : Operands)
  | norih (d : Operands)
deriving DecidableEq, Repr

/-- A row of the opcode map (30_encoding.md R79). -/
structure Row where
  op : Nibble
  mnemonic : String
  /-- The operand form (30_encoding.md R73, R74): immediate, or register. -/
  immForm : Bool
  readFirst : Bool
  writeBack : Bool
deriving DecidableEq, Repr

/-- The opcode map, written row by row from the table of 30_encoding.md R79 (not from the bit rules R75 and R76, which
the decoder follows). -/
def Instr.row : Instr → Row
  | .ld _    => ⟨0x0#4, "LD",    false, true,  true⟩
  | .st _    => ⟨0x1#4, "ST",    false, true,  false⟩
  | .ldx _   => ⟨0x2#4, "LDX",   true,  true,  true⟩
  | .stx _   => ⟨0x3#4, "STX",   true,  true,  false⟩
  | .rsv4 _  => ⟨0x4#4, "RSV4",  false, true,  false⟩
  | .jmp _   => ⟨0x5#4, "JMP",   false, true,  false⟩
  | .bnn _   => ⟨0x6#4, "BNN",   true,  true,  false⟩
  | .jr _    => ⟨0x7#4, "JR",    true,  false, false⟩
  | .add _   => ⟨0x8#4, "ADD",   false, true,  true⟩
  | .nor _   => ⟨0x9#4, "NOR",   false, true,  true⟩
  | .addi _  => ⟨0xA#4, "ADDI",  true,  true,  true⟩
  | .nori _  => ⟨0xB#4, "NORI",  true,  true,  true⟩
  | .addh _  => ⟨0xC#4, "ADDH",  false, true,  true⟩
  | .norh _  => ⟨0xD#4, "NORH",  false, true,  true⟩
  | .addih _ => ⟨0xE#4, "ADDIH", true,  true,  true⟩
  | .norih _ => ⟨0xF#4, "NORIH", true,  false, true⟩

/-- The five fields the constructor carries. -/
def Instr.operands : Instr → Operands
  | .ld d | .st d | .ldx d | .stx d | .rsv4 d | .jmp d | .bnn d | .jr d
  | .add d | .nor d | .addi d | .nori d | .addh d | .norh d | .addih d | .norih d => d

/-- The descriptor's sixth field (10_state.md R29). -/
def Instr.op (i : Instr) : Nibble := i.row.op

end Sys2Proof
end

