-- ==== Sys2Proof/WellFormed.lean ====
section
/-! DEFINITION. Which descriptors are instructions: the ones whose fields agree with each other as the opcode map
(30_encoding.md R79) and the operand forms (R73, R74) say. Every other descriptor is one no word decodes to. -/

namespace Sys2Proof

/-- The flag `readFirst` is the opcode map's (30_encoding.md R79). -/
def Instr.readFirstOk (i : Instr) : Bool := i.operands.readFirst == i.row.readFirst

/-- The flag `writeBack` is the opcode map's (30_encoding.md R79). -/
def Instr.writeBackOk (i : Instr) : Bool := i.operands.writeBack == i.row.writeBack

/-- The second register index is the forced one in the immediate form (30_encoding.md R74). -/
def Instr.secondIndexOk (i : Instr) : Bool :=
  if i.row.immForm then i.operands.rb == Config.forcedIndex else true

/-- The immediate is 0 in the register form (30_encoding.md R73) and a 4-bit two's complement number widened to 8 bits
in the immediate form (R74). -/
def Instr.immediateOk (i : Instr) : Bool :=
  if i.row.immForm then i.operands.imm == (i.operands.imm.setWidth 4).signExtend 8
  else i.operands.imm == 0#8

/-- All four checks. -/
def Instr.wellFormed (i : Instr) : Bool :=
  i.readFirstOk && i.writeBackOk && i.secondIndexOk && i.immediateOk

end Sys2Proof
end

