-- ==== Sys2Proof/Decode.lean ====
section
/-! DEFINITION. The instruction decoder (30_encoding.md R70 to R82), which is total: every 16-bit word decodes, so it
rejects nothing. After it the encoder, and the reading of a table word. -/

namespace Sys2Proof

/-- Field OP, bits 11:8 (30_encoding.md R71); bits 15:12 are ignored. -/
def fieldOp (w : Word) : Nibble := w.extractLsb' 8 4

/-- Field A, bits 7:4 (30_encoding.md R71). -/
def fieldA (w : Word) : Nibble := w.extractLsb' 4 4

/-- Field B, bits 3:0 (30_encoding.md R71). -/
def fieldB (w : Word) : Nibble := w.extractLsb' 0 4

/-- `sext_8` (00_scope.md R12): the value in bits 3:0, its bit 3 copied into bits 7:4. -/
def sext8 (v : Nibble) : Byte := if v.getLsbD 3 then v.setWidth 8 ||| 0xF0#8 else v.setWidth 8

/-- OP[1] selects the immediate form (30_encoding.md R73, R74). -/
def immediateForm (op : Nibble) : Bool := op.getLsbD 1

/-- `readFirst`: false only when the low 3 bits of the opcode are 7 (30_encoding.md R75; the exact rule is followed
for opcodes 0x6 and 0xF, 90_conflicts.md C2 and C3). -/
def readFirstOf (op : Nibble) : Bool := op.extractLsb' 0 3 != 7#3

/-- `writeBack`: true unless the opcode is one of 1, 3, 4, 5, 6, 7 (30_encoding.md R76). -/
def writeBackOf (op : Nibble) : Bool :=
  !(op == 1#4 || op == 3#4 || op == 4#4 || op == 5#4 || op == 6#4 || op == 7#4)

/-- The five descriptor fields beside `op` (30_encoding.md R77). The immediate of the register form is 0, the spec's
own decision D4 (log 13). -/
def decodeOperands (w : Word) : Operands where
  ra := fieldA w
  rb := if immediateForm (fieldOp w) then Config.forcedIndex else fieldB w
  imm := if immediateForm (fieldOp w) then sext8 (fieldB w) else 0#8
  readFirst := readFirstOf (fieldOp w)
  writeBack := writeBackOf (fieldOp w)

/-- The constructor an opcode names (30_encoding.md R79); the last arm is opcode 0xF. -/
def instrOfOp (op : Nibble) (d : Operands) : Instr :=
  match op.toNat with
  | 0 => .ld d
  | 1 => .st d
  | 2 => .ldx d
  | 3 => .stx d
  | 4 => .rsv4 d
  | 5 => .jmp d
  | 6 => .bnn d
  | 7 => .jr d
  | 8 => .add d
  | 9 => .nor d
  | 10 => .addi d
  | 11 => .nori d
  | 12 => .addh d
  | 13 => .norh d
  | 14 => .addih d
  | _ => .norih d

/-- `Decode` (30_encoding.md R77): pure and total. -/
def decode (w : Word) : Instr := instrOfOp (fieldOp w) (decodeOperands w)

/-- What field B of the word is: the second register index in the register form, the low 4 bits of the immediate in the
immediate form (30_encoding.md R73, R74). -/
def encodeB (i : Instr) : Nibble :=
  if i.row.immForm then i.operands.imm.setWidth 4 else i.operands.rb

/-- The word with X = 0 and the three fields in their places (30_encoding.md R71). -/
def packFields (op a b : Nibble) : Word := op.setWidth 16 <<< 8 ||| a.setWidth 16 <<< 4 ||| b.setWidth 16

/-- The word of a well-formed instruction, with X = 0 (30_encoding.md R71, R83; the spec's own decision D9, log 14). -/
def encode (i : Instr) : Word := packFields i.op i.operands.ra (encodeB i)

/-- The instruction the decoder reads from a table row's word of `nbits` bits. One word is the whole instruction
(30_encoding.md R70), so a longer row names no instruction. -/
def decodeTableWord (nbits w : Nat) : Option Instr :=
  if nbits ≤ 16 then some (decode (BitVec.ofNat 16 (w % 2 ^ nbits))) else none

end Sys2Proof
end

