-- ==== Sys2Proof/Machine/State.lean ====
section
/-! DEFINITION. The state of the core as plain data (10_state.md), the outcome reasons, and the state after reset. -/

namespace Sys2Proof.Machine

/-- The 7 real register cells (10_state.md R21). Index 0 is no cell and has no field. -/
structure Regs where
  r1 : Byte
  r2 : Byte
  r3 : Byte
  r4 : Byte
  r5 : Byte
  r6 : Byte
  r7 : Byte
deriving DecidableEq, Repr

/-- One duplex port: two single-byte slots (10_state.md R32). -/
structure Port where
  /-- `IN[p]`, the byte the host has sent to the core. -/
  inbound : Option Byte
  /-- `OUT[p]`, the byte the core has sent to the host. -/
  outbound : Option Byte
deriving DecidableEq, Repr

/-- The two ports (00_scope.md R5). -/
inductive PortId where
  | port0
  | port1
deriving DecidableEq, Repr

/-- The three kinds of diagnostic event (20_memory.md R52; the kinds are the spec's own, D5, log 16). -/
inductive Event where
  | readUnmapped (a : Byte)
  | writeUnmapped (a : Byte)
  | readEmptyPort (p : PortId)
deriving DecidableEq, Repr

/-- The RAM cells that do not read as `Config.ramDefault`, by data address, addresses rising (`Memory.wf`). -/
abbrev Memory := List Host.Cell

/-- The ROM words that do not read as `Config.romDefault`, by ROM address, addresses rising (`Rom.wf`). -/
abbrev Rom := List (Nat × Word)

/-- Why a run counts as failed. No step answers a fault: opcode 0x4 answers a next state with FATAL set (log 1). -/
inductive Fault where
  /-- The run ended with FATAL = 1 (60_exceptions.md R151, R152, R167): the spec's `ReservedOpcode` with the descriptor and
  the pc that the fatal step kept. Raised by the verdict on a run (`Machine.verdict`), never by a step. Safe: the spec says
  that such a run is never successful. -/
  | reservedOpcode (d : Option Instr) (pc : Byte)
deriving DecidableEq, Repr

/-- Why the model gives no meaning. -/
inductive Refusal where
  /-- An instruction with no meaning in the model. No arm of `exec` answers it. Safe. -/
  | notModelled (mnemonic : String)
  /-- A host operation on a port index other than 0 and 1 (20_memory.md R60, the spec's own decision D6, log 7). Raised by
  the host port operations only. Safe. -/
  | hostPortIndex (p : Nat)
deriving DecidableEq, Repr

/-- The state (10_state.md R20) and, last, two fields of the model's own. -/
structure State where
  /-- r1..r7 (10_state.md R21). -/
  regs : Regs
  /-- The ROM address of the word that this step fetches (10_state.md R26). -/
  pc : Byte
  /-- The fetch latch FL (10_state.md R28). -/
  fl : Option Word
  /-- The decode latch DL (10_state.md R29). -/
  dl : Option Instr
  /-- The RAM (10_state.md R30). -/
  mem : Memory
  /-- `IN[0]` and `OUT[0]` (10_state.md R32). -/
  port0 : Port
  /-- `IN[1]` and `OUT[1]` (10_state.md R32). -/
  port1 : Port
  /-- FATAL (10_state.md R37). -/
  fatal : Bool
  /-- The model's own: the ROM (10_state.md R31), a parameter of the step relation that no step changes (log 2). -/
  rom : Rom
  /-- The model's own: the diagnostic events emitted since reset, oldest first (20_memory.md R52), an output that no step
  reads (log 4). -/
  events : List Event
deriving DecidableEq, Repr

/-- Port `p`. -/
def State.port (p : PortId) (s : State) : Port :=
  match p with
  | .port0 => s.port0
  | .port1 => s.port1

/-- Replace port `p`. -/
def State.setPort (p : PortId) (q : Port) (s : State) : State :=
  match p with
  | .port0 => { s with port0 := q }
  | .port1 => { s with port1 := q }

/-- The state after reset (10_state.md R39), with no ROM word supplied and no event emitted (logs 2 and 4). -/
def State.reset : State where
  regs := ⟨0#8, 0#8, 0#8, 0#8, 0#8, 0#8, 0#8⟩
  pc := 0#8
  fl := none
  dl := none
  mem := []
  port0 := ⟨none, none⟩
  port1 := ⟨none, none⟩
  fatal := false
  rom := []
  events := []

end Sys2Proof.Machine
end

