-- ==== Sys2Proof/Machine/Ops.lean ====
section
/-! DEFINITION. The shared operations: the register file, the memory and port controller, the ROM, the pipeline's later
phases, and the fatal condition with the reset that leaves it. -/

namespace Sys2Proof.Machine

/-! ### The register file (10_state.md R21 to R23) -/

/-- A 4-bit register index masked to 3 bits (10_state.md R22). -/
def regIndex (i : Nibble) : BitVec 3 := i.extractLsb' 0 3

/-- `RegRead(i)` (10_state.md R22): index 0, and so index 8, reads 0. -/
def regRead (i : Nibble) (s : State) : Byte :=
  match (regIndex i).toNat with
  | 1 => s.regs.r1
  | 2 => s.regs.r2
  | 3 => s.regs.r3
  | 4 => s.regs.r4
  | 5 => s.regs.r5
  | 6 => s.regs.r6
  | 7 => s.regs.r7
  | _ => 0#8

/-- `RegWrite(i, v)` (10_state.md R23): a write to index 0, and so to index 8, changes nothing. -/
def regWrite (i : Nibble) (v : Byte) (s : State) : State :=
  match (regIndex i).toNat with
  | 1 => { s with regs := { s.regs with r1 := v } }
  | 2 => { s with regs := { s.regs with r2 := v } }
  | 3 => { s with regs := { s.regs with r3 := v } }
  | 4 => { s with regs := { s.regs with r4 := v } }
  | 5 => { s with regs := { s.regs with r5 := v } }
  | 6 => { s with regs := { s.regs with r6 := v } }
  | 7 => { s with regs := { s.regs with r7 := v } }
  | _ => s

/-! ### Lists of cells in canonical form -/

/-- What the cell at address `a` holds; an address with no entry reads as `dflt`. -/
def cellRead {α : Type} (dflt : α) : List (Nat × α) → Nat → α
  | [], _ => dflt
  | (k, v) :: m, a => if k = a then v else cellRead dflt m a

/-- Put `v` into the cell at address `a`, keeping the addresses rising and no entry equal to `dflt`. -/
def cellWrite {α : Type} [DecidableEq α] (dflt : α) : List (Nat × α) → Nat → α → List (Nat × α)
  | [], a, v => if v = dflt then [] else [(a, v)]
  | (k, x) :: m, a, v =>
    if a < k then (if v = dflt then (k, x) :: m else (a, v) :: (k, x) :: m)
    else if a = k then (if v = dflt then m else (a, v) :: m)
    else (k, x) :: cellWrite dflt m a v

/-- The canonical form: addresses strictly rising, every entry in `lo ≤ address < hi` and different from `dflt`. -/
abbrev cellsWf {α : Type} (dflt : α) (lo hi : Nat) (m : List (Nat × α)) : Prop :=
  m.Pairwise (fun c d => c.1 < d.1) ∧ ∀ c ∈ m, lo ≤ c.1 ∧ c.1 < hi ∧ c.2 ≠ dflt

/-- The RAM's canonical form: entries only at 0xF0..0xFF (20_memory.md R42). -/
abbrev Memory.wf (m : Memory) : Prop :=
  cellsWf Config.ramDefault Config.ramBase.toNat (Config.ramBase.toNat + Config.ramCells) m

/-- The ROM's canonical form: entries only at 0..255 (10_state.md R31). -/
abbrev Rom.wf (r : Rom) : Prop := cellsWf Config.romDefault 0 Config.romWords r

/-- The RAM cell at data address `a` (20_memory.md R47). -/
def ramRead (a : Byte) (s : State) : Byte := cellRead Config.ramDefault s.mem a.toNat

/-- Set the RAM cell at data address `a` (20_memory.md R47). -/
def ramWrite (a v : Byte) (s : State) : State :=
  { s with mem := cellWrite Config.ramDefault s.mem a.toNat v }

/-- `ROM[a]` (10_state.md R31). -/
def romWord (a : Byte) (s : State) : Word := cellRead Config.romDefault s.rom a.toNat

/-! ### The memory and port controller (20_memory.md) -/

/-- `emit` (00_scope.md R16): append one diagnostic event to the event output. -/
def emit (e : Event) (s : State) : State := { s with events := s.events ++ [e] }

/-- The port an I/O address belongs to, `a >> 1` (20_memory.md R42). -/
def portOf (a : Byte) : PortId := if (a >>> 1) = 0#8 then .port0 else .port1

/-- The status byte of a port (10_state.md R33): bit 1 is IN_FULL, bit 0 is OUT_EMPTY, the others are 0. -/
def statusByte (q : Port) : Byte :=
  (if q.inbound.isSome then 0x02#8 else 0x00#8) ||| (if q.outbound.isNone then 0x01#8 else 0x00#8)

/-- A read at a data-in address (20_memory.md R44): take and clear the inbound slot, or answer 0 with a diagnostic. -/
def takeInbound (p : PortId) (s : State) : Byte × State :=
  match (s.port p).inbound with
  | some b => (b, s.setPort p { s.port p with inbound := none })
  | none => (0x00#8, emit (.readEmptyPort p) s)

/-- A write at a data-out address (20_memory.md R51). -/
def putOutbound (p : PortId) (v : Byte) (s : State) : State :=
  s.setPort p { s.port p with outbound := some v }

/-- `MemRead(a, 1)` (20_memory.md R43). -/
def memRead (a : Byte) (s : State) : Byte × State :=
  if a < Config.ioLimit then
    if a.getLsbD 0 = false then takeInbound (portOf a) s
    else (statusByte (s.port (portOf a)), s)
  else if a < Config.ramBase then (0x00#8, emit (.readUnmapped a) s)
  else (ramRead a s, s)

/-- `MemWrite(a, 1, v)` (20_memory.md R48). The odd port address is the one that sends a byte (90_conflicts.md C1). -/
def memWrite (a v : Byte) (s : State) : State :=
  if a < Config.ioLimit then
    if a.getLsbD 0 = false then emit (.writeUnmapped a) s
    else putOutbound (portOf a) v s
  else if a < Config.ramBase then emit (.writeUnmapped a) s
  else ramWrite a v s

/-! ### Phases (2) to (4) of a step (40_pipeline.md R95 to R97) -/

/-- The pending program-counter update of a step (00_scope.md R17). -/
inductive PcUpdate where
  /-- Add an 8-bit increment. -/
  | add (k : Byte)
  /-- Assign an 8-bit address. -/
  | assign (t : Byte)
deriving DecidableEq, Repr

/-- The output `rom_addr` (00_scope.md R9). -/
def romAddr (s : State) : Byte := s.pc

/-- Phase (2), decode (40_pipeline.md R95): with no fetched word, the decode latch stays as it was. -/
def decodeStage (s : State) : State :=
  match s.fl with
  | some w => { s with dl := some (decode w) }
  | none => s

/-- Phase (3), fetch (40_pipeline.md R96). -/
def fetchStage (s : State) : State := { s with fl := some (romWord (romAddr s) s) }

/-- Phase (4), the pc update (40_pipeline.md R97). -/
def applyPc (u : PcUpdate) (s : State) : State :=
  match u with
  | .add k => { s with pc := s.pc + k }
  | .assign t => { s with pc := t }

/-- Phases (2), (3), (4) in their order (40_pipeline.md R91). -/
def advance (u : PcUpdate) (s : State) : State := applyPc u (fetchStage (decodeStage s))

/-! ### The fatal condition and reset -/

/-- `raise Fatal` (60_exceptions.md R151): FATAL becomes 1 and every other element keeps its value; the caller does nothing
after it, so the rest of the step does not happen (log 1). -/
def raiseFatal (s : State) : State := { s with fatal := true }

/-- What a model records with the fatal condition (60_exceptions.md R151, R152): the descriptor and the pc, which the fatal
step kept. -/
def fatalRecord (s : State) : Option Fault :=
  if s.fatal then some (.reservedOpcode s.dl s.pc) else none

/-- Construction from a ROM (70_reset_and_hazards.md R170): every other element is zero or empty. -/
def construct (image : Rom) : State := { State.reset with rom := image }

/-- The input `rst` (00_scope.md R9, 70_reset_and_hazards.md R170): the state of construction from the same ROM, the only way
out of the fatal state (40_pipeline.md R90; the spec's own decision D2, log 12). -/
def assertReset (s : State) : State := construct s.rom

/-- The words of an image placed from ROM address `a` on, in canonical form; words beyond the ROM's end are dropped. -/
def placeWords (a : Nat) : List Word → Rom
  | [] => []
  | w :: ws =>
    if a < Config.romWords then
      (if w = Config.romDefault then placeWords (a + 1) ws else (a, w) :: placeWords (a + 1) ws)
    else []

/-- The ROM that holds an image's words from address 0 (10_state.md R31). The host supplies 256 words; an image of fewer leaves
the other words at `Config.romDefault` (log 2). -/
def loadImage (ws : List Word) : Rom := placeWords 0 ws

end Sys2Proof.Machine
end

