-- ==== Sys2Proof/Machine/Operands.lean ====
section
/-! DEFINITION. The operands of the execute stage (40_pipeline.md R93), the addressing modes (41_load_store.md R114) and the
write-back (40_pipeline.md R98). -/

namespace Sys2Proof.Machine

/-- v1 (40_pipeline.md R93): the first register, or index 0 when the read is gated. -/
def firstOperand (d : Operands) (s : State) : Byte := regRead (if d.readFirst then d.ra else 0#4) s

/-- v2 (40_pipeline.md R93): x[B] in the register form, x[7] in the immediate form, whose `rb` is 15. -/
def secondOperand (d : Operands) (s : State) : Byte := regRead d.rb s

/-- Register indirect (41_load_store.md R114). -/
def indirectAddress (d : Operands) (s : State) : Byte := secondOperand d s

/-- Base r7 plus signed offset, modulo 256 (41_load_store.md R114). -/
def indexedAddress (d : Operands) (s : State) : Byte := secondOperand d s + d.imm

/-- Write-back (40_pipeline.md R98): through the raw `ra`, not the gated index. -/
def writeBack (d : Operands) (result : Byte) (s : State) : State :=
  if d.writeBack then regWrite d.ra result s else s

end Sys2Proof.Machine
end

