-- ==== Sys2Proof/Machine/Alu.lean ====
section
/-! DEFINITION. The ALU's operations (43_alu.md R130) and the eight ALU instructions (R132 to R139). -/

namespace Sys2Proof.Machine

/-- `add(a, b) = (a + b) mod 256` (43_alu.md R130). -/
def aluAdd (a b : Byte) : Byte := a + b

/-- `nor(a, b) = ~(a | b)` on 8 bits (43_alu.md R130; PRESUMED by the spec itself, log 9). -/
def aluNor (a b : Byte) : Byte := ~~~(a ||| b)

/-- `asr1(v) = (v >> 1) | (v & 0x80)` (00_scope.md R13, 43_alu.md R130; PRESUMED by the spec itself, log 9). -/
def asr1 (v : Byte) : Byte := (v >>> 1) ||| (v &&& 0x80#8)

/-- What every ALU instruction does with its result (43_alu.md R131): write it back and go on with the pipeline. -/
def finishAlu (d : Operands) (result : Byte) (s : State) : Host.Outcome State Fault Refusal :=
  .next (advance (.add 1#8) (writeBack d result s))

/-- ADD (43_alu.md R132). -/
def execAdd (d : Operands) (s : State) : Host.Outcome State Fault Refusal :=
  finishAlu d (aluAdd (firstOperand d s) (secondOperand d s)) s

/-- NOR (43_alu.md R133). -/
def execNor (d : Operands) (s : State) : Host.Outcome State Fault Refusal :=
  finishAlu d (aluNor (firstOperand d s) (secondOperand d s)) s

/-- ADDI (43_alu.md R134). -/
def execAddi (d : Operands) (s : State) : Host.Outcome State Fault Refusal :=
  finishAlu d (aluAdd (firstOperand d s) d.imm) s

/-- NORI (43_alu.md R135). -/
def execNori (d : Operands) (s : State) : Host.Outcome State Fault Refusal :=
  finishAlu d (aluNor (firstOperand d s) d.imm) s

/-- ADDH (43_alu.md R136): the wrapped 8-bit sum is halved, its carry is lost (R130). -/
def execAddh (d : Operands) (s : State) : Host.Outcome State Fault Refusal :=
  finishAlu d (asr1 (aluAdd (firstOperand d s) (secondOperand d s))) s

/-- NORH (43_alu.md R137). -/
def execNorh (d : Operands) (s : State) : Host.Outcome State Fault Refusal :=
  finishAlu d (asr1 (aluNor (firstOperand d s) (secondOperand d s))) s

/-- ADDIH (43_alu.md R138). -/
def execAddih (d : Operands) (s : State) : Host.Outcome State Fault Refusal :=
  finishAlu d (asr1 (aluAdd (firstOperand d s) d.imm)) s

/-- NORIH (43_alu.md R139): v1 is the gated read, 0 for every decoded word (90_conflicts.md C3, log 15). -/
def execNorih (d : Operands) (s : State) : Host.Outcome State Fault Refusal :=
  finishAlu d (asr1 (aluNor (firstOperand d s) d.imm)) s

end Sys2Proof.Machine
end

