-- ==== Sys2Proof/Machine/Flags.lean ====
section
/-! DEFINITION. The core has no flags register (10_state.md R34). The only condition it tests is bit 7 of a register value. -/

namespace Sys2Proof.Machine

/-- BNN's condition (42_control.md R122): bit 7 is clear. -/
def nonNegative (v : Byte) : Bool := !v.getLsbD 7

end Sys2Proof.Machine
end

