-- ==== Sys2Proof/Machine/Control.lean ====
section
/-! DEFINITION. The reserved opcode and the control transfers (42_control.md). The two words in the latches still execute
after a transfer: nothing is flushed (40_pipeline.md R102). -/

namespace Sys2Proof.Machine

/-- RSV4 (42_control.md R120): Fatal, and the rest of the step does not happen (60_exceptions.md R151). -/
def execRsv4 (_d : Operands) (s : State) : Host.Outcome State Fault Refusal :=
  .next (raiseFatal s)

/-- JMP (42_control.md R121). -/
def execJmp (d : Operands) (s : State) : Host.Outcome State Fault Refusal :=
  .next (advance (.assign (secondOperand d s)) s)

/-- BNN (42_control.md R122). -/
def execBnn (d : Operands) (s : State) : Host.Outcome State Fault Refusal :=
  .next (advance (.add (if nonNegative (firstOperand d s) then d.imm else 1#8)) s)

/-- JR (42_control.md R123). -/
def execJr (d : Operands) (s : State) : Host.Outcome State Fault Refusal :=
  .next (advance (.add d.imm) s)

end Sys2Proof.Machine
end

