-- ==== Sys2Proof/Machine/LoadStore.lean ====
section
/-! DEFINITION. The load and store instructions (41_load_store.md). Each meaning is the whole step that executes the
instruction: phase (1), then `advance` (log 17). Operands are read first, then the data access is made, then the result is
written back (40_pipeline.md R107). -/

namespace Sys2Proof.Machine

/-- Load from a data address, write back, and go on with the pipeline. -/
def loadFrom (a : Byte) (d : Operands) (s : State) : Host.Outcome State Fault Refusal :=
  .next (advance (.add 1#8) (writeBack d (memRead a s).1 (memRead a s).2))

/-- Store to a data address and go on with the pipeline. -/
def storeTo (a : Byte) (d : Operands) (s : State) : Host.Outcome State Fault Refusal :=
  .next (advance (.add 1#8) (memWrite a (firstOperand d s) s))

/-- LD (41_load_store.md R110). -/
def execLd (d : Operands) (s : State) : Host.Outcome State Fault Refusal :=
  loadFrom (indirectAddress d s) d s

/-- ST (41_load_store.md R111). -/
def execSt (d : Operands) (s : State) : Host.Outcome State Fault Refusal :=
  storeTo (indirectAddress d s) d s

/-- LDX (41_load_store.md R112). -/
def execLdx (d : Operands) (s : State) : Host.Outcome State Fault Refusal :=
  loadFrom (indexedAddress d s) d s

/-- STX (41_load_store.md R113). -/
def execStx (d : Operands) (s : State) : Host.Outcome State Fault Refusal :=
  storeTo (indexedAddress d s) d s

end Sys2Proof.Machine
end

