-- ==== Sys2Proof/Machine/Dispatch.lean ====
section
/-! DEFINITION. The dispatch of the execute stage (40_pipeline.md R94): one arm per instruction. -/

namespace Sys2Proof.Machine

/-- The step that executes instruction `i` (40_pipeline.md R94, R99). -/
def exec (i : Instr) (s : State) : Host.Outcome State Fault Refusal :=
  match i with
  | .ld d => Sys2Proof.Machine.execLd d s
  | .st d => Sys2Proof.Machine.execSt d s
  | .ldx d => Sys2Proof.Machine.execLdx d s
  | .stx d => Sys2Proof.Machine.execStx d s
  | .rsv4 d => Sys2Proof.Machine.execRsv4 d s
  | .jmp d => Sys2Proof.Machine.execJmp d s
  | .bnn d => Sys2Proof.Machine.execBnn d s
  | .jr d => Sys2Proof.Machine.execJr d s
  | .add d => Sys2Proof.Machine.execAdd d s
  | .nor d => Sys2Proof.Machine.execNor d s
  | .addi d => Sys2Proof.Machine.execAddi d s
  | .nori d => Sys2Proof.Machine.execNori d s
  | .addh d => Sys2Proof.Machine.execAddh d s
  | .norh d => Sys2Proof.Machine.execNorh d s
  | .addih d => Sys2Proof.Machine.execAddih d s
  | .norih d => Sys2Proof.Machine.execNorih d s

end Sys2Proof.Machine
end

