-- ==== Sys2Proof/Machine/Sequencer.lean ====
section
/-! DEFINITION. The pipeline sequencer (40_pipeline.md), over the execute stage it is given, and the filling of the pipeline
with one word. -/

namespace Sys2Proof.Machine

/-- `Step()` (40_pipeline.md R99): nothing when FATAL = 1 (R90); with an empty decode latch phase (1) does nothing and the
pending update is Add(1) (R92); else the step that executes the latch's descriptor. -/
def sequencer (execute : Instr → State → Host.Outcome State Fault Refusal) (s : State) :
    Host.Outcome State Fault Refusal :=
  if s.fatal then .next s
  else
    match s.dl with
    | none => .next (advance (.add 1#8) s)
    | some i => execute i s

/-- The state in which the very next step executes the word `w`: `w` stands in the ROM where the core fetches next, and two
steps of warm-up (40_pipeline.md R100) have fetched and decoded it and fetched the word after it, on a core that is not
fatal. It stands for the host's supply of the ROM and those two steps (log 8). -/
def fillPipeline (w : Word) (s : State) : State :=
  let r := cellWrite Config.romDefault s.rom s.pc.toNat w
  { s with
    rom := r
    fl := some (cellRead Config.romDefault r (s.pc + 1#8).toNat)
    dl := some (decode w)
    pc := s.pc + 2#8
    fatal := false }

end Sys2Proof.Machine
end

