-- ==== Sys2Proof/Machine/Step.lean ====
section
/-! DEFINITION. One step of the core, and the placing of an instruction where the next step runs it. -/

namespace Sys2Proof.Machine

/-- One `step()`, one clock cycle (00_scope.md R7, 40_pipeline.md R99). -/
def step (s : State) : Host.Outcome State Fault Refusal := sequencer exec s

/-- The state in which the next step executes the table word `w` (log 8). -/
def State.withFetchWord (s : State) (nbits w : Nat) : State :=
  fillPipeline (BitVec.ofNat 16 (w % 2 ^ nbits)) s

end Sys2Proof.Machine
end

