-- ==== Sys2Proof/Machine/Asm.lean ====
section
/-! DEFINITION. The assembler syntax (30_encoding.md R83) and the pseudo-instructions (R84), both the spec's own (D9, D10,
log 14): syntax only, no step reads them. -/

namespace Sys2Proof.Machine

/-- A register number of the assembler, r0..r7. -/
abbrev AsmReg := BitVec 3

/-- An assembler line (30_encoding.md R83). An immediate is its 4 bits, read as a signed number in -8..7. -/
inductive Asm where
  | ld (a b : AsmReg)
  | st (a b : AsmReg)
  | ldx (a : AsmReg) (i : Nibble)
  | stx (a : AsmReg) (i : Nibble)
  | rsv4
  | jmp (b : AsmReg)
  | bnn (a : AsmReg) (i : Nibble)
  | jr (i : Nibble)
  | add (a b : AsmReg)
  | nor (a b : AsmReg)
  | addi (a : AsmReg) (i : Nibble)
  | nori (a : AsmReg) (i : Nibble)
  | addh (a b : AsmReg)
  | norh (a b : AsmReg)
  | addih (a : AsmReg) (i : Nibble)
  | norih (a : AsmReg) (i : Nibble)
deriving DecidableEq, Repr

/-- The word with X = 0, opcode `op`, register `a` in field A and `b` in field B. -/
def asmFields (op : Nibble) (a : AsmReg) (b : Nibble) : Word := packFields op (a.setWidth 4) b

/-- The word of an assembler line (30_encoding.md R83): A = 0 where the operand is unused. -/
def assemble : Asm → Word
  | .ld a b => asmFields 0x0#4 a (b.setWidth 4)
  | .st a b => asmFields 0x1#4 a (b.setWidth 4)
  | .ldx a i => asmFields 0x2#4 a i
  | .stx a i => asmFields 0x3#4 a i
  | .rsv4 => asmFields 0x4#4 0#3 0#4
  | .jmp b => asmFields 0x5#4 0#3 (b.setWidth 4)
  | .bnn a i => asmFields 0x6#4 a i
  | .jr i => asmFields 0x7#4 0#3 i
  | .add a b => asmFields 0x8#4 a (b.setWidth 4)
  | .nor a b => asmFields 0x9#4 a (b.setWidth 4)
  | .addi a i => asmFields 0xA#4 a i
  | .nori a i => asmFields 0xB#4 a i
  | .addh a b => asmFields 0xC#4 a (b.setWidth 4)
  | .norh a b => asmFields 0xD#4 a (b.setWidth 4)
  | .addih a i => asmFields 0xE#4 a i
  | .norih a i => asmFields 0xF#4 a i

/-- `r0`..`r7`. -/
def regText (r : AsmReg) : String := (["r0", "r1", "r2", "r3", "r4", "r5", "r6", "r7"])[r.toNat]?.getD ""

/-- A signed decimal immediate. -/
def immText (i : Nibble) : String :=
  (["0", "1", "2", "3", "4", "5", "6", "7", "-8", "-7", "-6", "-5", "-4", "-3", "-2", "-1"])[i.toNat]?.getD ""

/-- The operand of the indexed forms: `[r7+3]`, `[r7-8]`. -/
def indexedText (i : Nibble) : String := "[r7" ++ (if i.getLsbD 3 then "" else "+") ++ immText i ++ "]"

/-- The spelling of an assembler line (30_encoding.md R83). -/
def asmText : Asm → String
  | .ld a b => "LD " ++ regText a ++ ", [" ++ regText b ++ "]"
  | .st a b => "ST " ++ regText a ++ ", [" ++ regText b ++ "]"
  | .ldx a i => "LDX " ++ regText a ++ ", " ++ indexedText i
  | .stx a i => "STX " ++ regText a ++ ", " ++ indexedText i
  | .rsv4 => "RSV4"
  | .jmp b => "JMP " ++ regText b
  | .bnn a i => "BNN " ++ regText a ++ ", " ++ immText i
  | .jr i => "JR " ++ immText i
  | .add a b => "ADD " ++ regText a ++ ", " ++ regText b
  | .nor a b => "NOR " ++ regText a ++ ", " ++ regText b
  | .addi a i => "ADDI " ++ regText a ++ ", " ++ immText i
  | .nori a i => "NORI " ++ regText a ++ ", " ++ immText i
  | .addh a b => "ADDH " ++ regText a ++ ", " ++ regText b
  | .norh a b => "NORH " ++ regText a ++ ", " ++ regText b
  | .addih a i => "ADDIH " ++ regText a ++ ", " ++ immText i
  | .norih a i => "NORIH " ++ regText a ++ ", " ++ immText i

/-- The pseudo-instructions (30_encoding.md R84). -/
inductive Pseudo where
  | nop
  | clr (a : AsmReg)
  | not (a : AsmReg)
  | shl (a : AsmReg)
  | neg (a : AsmReg)
  | li (a : AsmReg) (i : Nibble)
  /-- Meant for two different registers (30_encoding.md R84: A ≠ B). -/
  | mov (a b : AsmReg)
  | spin
deriving DecidableEq, Repr

/-- The expansion of a pseudo-instruction (30_encoding.md R84). -/
def expand : Pseudo → List Asm
  | .nop => [.add 0#3 0#3]
  | .clr a => [.nori a 0xF#4]
  | .not a => [.nori a 0#4]
  | .shl a => [.add a a]
  | .neg a => [.nori a 0#4, .addi a 1#4]
  | .li a i => [.nori a 0xF#4, .addi a i]
  | .mov a b => [.nori a 0xF#4, .add a b]
  | .spin => [.jr 0xE#4, .add 0#3 0#3, .add 0#3 0#3]

end Sys2Proof.Machine
end

