-- ==== Sys2Proof/Machine/HostPort.lean ====
section
/-! DEFINITION. The host's side of the core between steps: the port operations (20_memory.md R56 to R60), introspection
(60_exceptions.md R165) and the outputs (00_scope.md R9). None depends on FATAL (60_exceptions.md R168). -/

namespace Sys2Proof.Machine

/-- The port a host index names (20_memory.md R60). -/
def hostPort (p : Nat) : Option PortId :=
  match p with
  | 0 => some .port0
  | 1 => some .port1
  | _ => none

/-- `port_writable(p)` (20_memory.md R56). -/
def portWritable (p : Nat) (s : State) : Host.Outcome Bool Fault Refusal :=
  match hostPort p with
  | some q => .next (s.port q).inbound.isNone
  | none => .refused (.hostPortIndex p)

/-- `port_readable(p)` (20_memory.md R57). -/
def portReadable (p : Nat) (s : State) : Host.Outcome Bool Fault Refusal :=
  match hostPort p with
  | some q => .next (s.port q).outbound.isSome
  | none => .refused (.hostPortIndex p)

/-- `port_write(p, b)` (20_memory.md R58): fills the inbound slot, over an unread byte too (90_conflicts.md C6). -/
def portWrite (p : Nat) (b : Byte) (s : State) : Host.Outcome State Fault Refusal :=
  match hostPort p with
  | some q => .next (s.setPort q { s.port q with inbound := some b })
  | none => .refused (.hostPortIndex p)

/-- `port_read(p)` (20_memory.md R59): takes and clears the outbound slot. -/
def portRead (p : Nat) (s : State) : Host.Outcome (Option Byte × State) Fault Refusal :=
  match hostPort p with
  | some q => .next ((s.port q).outbound, s.setPort q { s.port q with outbound := none })
  | none => .refused (.hostPortIndex p)

/-- The host's read of register cell r1..r7 (60_exceptions.md R165); `n` is 0 for r1 and 6 for r7. -/
def inspectCell (n : Fin 7) (s : State) : Byte := regRead (BitVec.ofNat 4 (n.val + 1)) s

/-- The host's read of the program counter (60_exceptions.md R165). -/
def inspectPc (s : State) : Byte := s.pc

/-- The host's read of MEM[n] (60_exceptions.md R165). -/
def inspectMem (n : Fin 16) (s : State) : Byte := ramRead (Config.ramBase + BitVec.ofNat 8 n.val) s

/-- The output `fatal` (00_scope.md R9). -/
def fatalOutput (s : State) : Bool := s.fatal

/-- The output `diag` of the step from `s` to `t` (00_scope.md R9): the events that step emitted. -/
def diagOutput (s t : State) : List Event := t.events.drop s.events.length

end Sys2Proof.Machine
end

