-- ==== Sys2Proof/Machine/System.lean ====
section
/-! DEFINITION. The core with its host: what may happen between and at clock edges, and runs (20_memory.md R61,
60_exceptions.md R167). The host's schedule is a free input: a list of actions (log 6). -/

namespace Sys2Proof.Machine

/-- Everything that changes or reads the core from outside, and the step (20_memory.md R61, 00_scope.md R9). -/
inductive Action where
  | step
  | reset
  | portWritable (p : Nat)
  | portReadable (p : Nat)
  | portWrite (p : Nat) (b : Byte)
  | portRead (p : Nat)
deriving DecidableEq, Repr

/-- Go on with the state that an answer leaves, under a reading of the answer. -/
def continueWith {α : Type} (f : α → State) (o : Host.Outcome α Fault Refusal) : Host.Outcome State Fault Refusal :=
  match o with
  | .next a => .next (f a)
  | .fault r => .fault r
  | .refused r => .refused r

/-- The state after one action. The two status predicates change no state (20_memory.md R56, R57). -/
def perform (act : Action) (s : State) : Host.Outcome State Fault Refusal :=
  match act with
  | .step => Sys2Proof.Machine.step s
  | .reset => .next (assertReset s)
  | .portWritable p => continueWith (fun _ => s) (Sys2Proof.Machine.portWritable p s)
  | .portReadable p => continueWith (fun _ => s) (Sys2Proof.Machine.portReadable p s)
  | .portWrite p b => Sys2Proof.Machine.portWrite p b s
  | .portRead p => continueWith Prod.snd (Sys2Proof.Machine.portRead p s)

/-- The state after a finite sequence of actions. -/
def runActions : List Action → State → Host.Outcome State Fault Refusal
  | [], s => .next s
  | act :: acts, s =>
    match perform act s with
    | .next t => runActions acts t
    | .fault r => .fault r
    | .refused r => .refused r

/-- The verdict on a run's last state (60_exceptions.md R167): a run that ends with FATAL = 1 is not successful. -/
def verdict (s : State) : Host.Outcome State Fault Refusal :=
  match fatalRecord s with
  | some f => .fault f
  | none => .next s

end Sys2Proof.Machine
end

