-- ==== Sys2Proof/Safety.lean ====
section
/-! DEFINITION. The terms claims use: the invariant of the model, what a step leaves as it was, and successful runs. -/

namespace Sys2Proof.Machine

/-- The instruction is the reserved opcode (42_control.md R120). -/
def isReserved (i : Instr) : Bool := i.op == 0x4#4

/-- The decode latch holds nothing or a well-formed descriptor (10_state.md R29: the decoder computes each field). -/
def LatchOk (s : State) : Prop := ∀ i, s.dl = some i → i.wellFormed = true

/-- A word is fetched before one is decoded, and stays so (40_pipeline.md R95, R96). -/
def WarmupOk (s : State) : Prop := s.dl.isSome = true → s.fl.isSome = true

/-- FATAL is set only by an RSV4 that the decode latch then keeps (60_exceptions.md R151). -/
def FatalOk (s : State) : Prop := s.fatal = true → ∃ i, s.dl = some i ∧ isReserved i = true

/-- The invariant: RAM and ROM in canonical form, and the three facts above. -/
structure Invariant (s : State) : Prop where
  memory : Memory.wf s.mem
  rom : Rom.wf s.rom
  latch : LatchOk s
  warmup : WarmupOk s
  fatal : FatalOk s

/-- Which registers, RAM cells and so on differ is said by the statements; this is the part that every step that executes
or warms up treats alike: the ROM and FATAL stay, the fetch latch takes the word at pc, and the decode latch takes the
decoded old fetch latch if there is one (40_pipeline.md R95, R96). -/
structure PipelineMoved (s t : State) : Prop where
  rom : t.rom = s.rom
  fatal : t.fatal = s.fatal
  fetched : t.fl = some (romWord s.pc s)
  decoded : ∀ w, s.fl = some w → t.dl = some (decode w)
  kept : s.fl = none → t.dl = s.dl

/-- Every register reads as before. -/
def SameRegs (s t : State) : Prop := ∀ j, regRead j t = regRead j s

/-- Register `i` reads `v` if it is a real cell, and every other index reads as before (10_state.md R22, R23). -/
def OnlyReg (i : Nibble) (v : Byte) (s t : State) : Prop :=
  ∀ j, regRead j t = if regIndex j = regIndex i ∧ regIndex i ≠ 0#3 then v else regRead j s

/-- Every byte of RAM reads as before. -/
def SameRam (s t : State) : Prop := ∀ a, ramRead a t = ramRead a s

/-- Both ports are as before. -/
def SamePorts (s t : State) : Prop := ∀ p, t.port p = s.port p

/-- No byte of RAM, no port slot and no event differs (20_memory.md R41: no data access was made). -/
structure NoDataAccess (s t : State) : Prop where
  ram : SameRam s t
  ports : SamePorts s t
  events : t.events = s.events

/-- Everything but port `p` is as before. -/
structure OnlyPort (p : PortId) (s t : State) : Prop where
  otherPort : ∀ q, q ≠ p → t.port q = s.port q
  regs : t.regs = s.regs
  pc : t.pc = s.pc
  fl : t.fl = s.fl
  dl : t.dl = s.dl
  mem : t.mem = s.mem
  fatal : t.fatal = s.fatal
  rom : t.rom = s.rom
  events : t.events = s.events

/-- The same state with another list of emitted events (the list is the model's own field, log 4). -/
def withEvents (l : List Event) (s : State) : State := { s with events := l }

/-- The host's index of a port (20_memory.md R60). -/
def hostIndex : PortId → Nat
  | .port0 => 0
  | .port1 => 1

/-- The address 2p, port data-in (20_memory.md R42). -/
def dataInAddress : PortId → Byte
  | .port0 => 0x00#8
  | .port1 => 0x02#8

/-- The address 2p + 1, port status on a read and data-out on a write (20_memory.md R42). -/
def dataOutAddress : PortId → Byte
  | .port0 => 0x01#8
  | .port1 => 0x03#8

/-- Execute the decoded words one after the other, latches ignored: what straight-line code does to registers and memory. -/
def execWords : List Word → State → Host.Outcome State Fault Refusal
  | [], s => .next s
  | w :: ws, s =>
    match exec (decode w) s with
    | .next t => execWords ws t
    | .fault r => .fault r
    | .refused r => .refused r

/-- The states that a sequence of actions can leave after construction from an image (60_exceptions.md R167). -/
def Reachable (t : State) : Prop :=
  ∃ image acts, Rom.wf image ∧ runActions acts (construct image) = .next t

/-- A successful run (60_exceptions.md R167): it ends with FATAL = 0. -/
def Successful (t : State) : Prop := Reachable t ∧ t.fatal = false

end Sys2Proof.Machine
end

