-- ==== Sys2Proof/Certificates/Slice0/Obligations.lean ====
section
/-! DEFINITION. The statements for the provers. Each docstring names the rules of spec/ a statement formalises. Statements about
an instruction take the word by its bits (00_scope.md R10, 30_encoding.md R71), so every operand, every aliased register index
8..15 and every value of the ignored bits 15:12 is covered, and they conclude that `exec` answers a next state. -/

open Sys2Proof Sys2Proof.Machine

/-! ### Encoding -/

/-- DECODE AND ENCODE AGREE on every well-formed instruction, every operand at every value (30_encoding.md R71 to R79). -/
def Obligations.DecodeOfEncode : Prop := ∀ i : Instr, i.wellFormed = true → decode (encode i) = i

/-- Encoding a decoded word gives the word back with bits 15:12 cleared (30_encoding.md R71, R83; X = 0 is decision D9, log 14). -/
def Obligations.EncodeOfDecodeClearsX : Prop := ∀ w : Word, encode (decode w) = w &&& 0x0FFF#16

/-- 30_encoding.md R72, R74, R75, R76, bit by bit of the word. -/
def Obligations.DescriptorFields : Prop :=
  ∀ w : Word,
    (decode w).op = w.extractLsb' 8 4 ∧
    (decode w).operands.ra = w.extractLsb' 4 4 ∧
    (w.getLsbD 9 = true →
      (decode w).operands.rb = 15#4 ∧ (decode w).operands.imm = (w.extractLsb' 0 4).signExtend 8) ∧
    ((decode w).operands.readFirst = false ↔ (w.extractLsb' 8 3 : BitVec 3) = 7#3) ∧
    ((decode w).operands.readFirst = false → ∀ s, firstOperand (decode w).operands s = 0#8) ∧
    ((decode w).operands.writeBack = false ↔
      (w.extractLsb' 8 4 : Nibble) ∈ [1#4, 3#4, 4#4, 5#4, 6#4, 7#4])

/-- 30_encoding.md R77, R79: every word decodes, and to fields that agree with the opcode map's row. In the register form that says
imm = 0, the spec's decision D4 (log 13). -/
def Obligations.EveryWordDecodesWellFormed : Prop := ∀ w : Word, (decode w).wellFormed = true

/-- A few words, one a family, decode to the instructions they stand for (30_encoding.md R71 to R76, R83). That LD, RSV4 and ADDH,
of the register form, decode with imm = 0x00 is R73's own choice, the spec's decision D4 (log 13). -/
def Obligations.SampleWordsDecode : Prop :=
  decode 0b0000000000010010#16 = .ld ⟨1#4, 2#4, 0#8, true, true⟩ ∧
  decode 0b0000001100011000#16 = .stx ⟨1#4, 15#4, 0xF8#8, true, false⟩ ∧
  decode 0b0000011000011100#16 = .bnn ⟨1#4, 15#4, 0xFC#8, true, false⟩ ∧
  decode 0b0000010000000000#16 = .rsv4 ⟨0#4, 0#4, 0#8, true, false⟩ ∧
  decode 0b0000110000010010#16 = .addh ⟨1#4, 2#4, 0#8, true, true⟩ ∧
  decode 0b0000111100010010#16 = .norih ⟨1#4, 15#4, 0x02#8, false, true⟩

/-! ### The register file -/

/-- 10_state.md R22, R23: the index is masked to 3 bits, index 0 reads 0 and discards writes, a write changes its cell only. -/
def Obligations.RegisterFileReadsAndWrites : Prop :=
  (∀ i s, regIndex i = 0#3 → regRead i s = 0#8 ∧ ∀ v, regWrite i v s = s) ∧
  (∀ i v s, OnlyReg i v s (regWrite i v s) ∧ ∃ r, regWrite i v s = { s with regs := r }) ∧
  (∀ i j s, regIndex i = regIndex j → regRead i s = regRead j s ∧ ∀ v, regWrite i v s = regWrite j v s) ∧
  ∀ s, regRead 1#4 s = s.regs.r1 ∧ regRead 2#4 s = s.regs.r2 ∧ regRead 3#4 s = s.regs.r3 ∧ regRead 4#4 s = s.regs.r4 ∧
    regRead 5#4 s = s.regs.r5 ∧ regRead 6#4 s = s.regs.r6 ∧ regRead 7#4 s = s.regs.r7

/-- 40_pipeline.md R93 on decoded words: v1 is x[A], or 0 when the opcode's low 3 bits are 7; v2 is x[B] or x[7]. -/
def Obligations.OperandRead : Prop :=
  ∀ w s,
    firstOperand (decode w).operands s =
      (if (w.extractLsb' 8 3 : BitVec 3) = 7#3 then 0#8 else regRead (fieldA w) s) ∧
    secondOperand (decode w).operands s = (if w.getLsbD 9 then regRead 7#4 s else regRead (fieldB w) s)

/-! ### The memory and port controller -/

/-- 20_memory.md R43, every region: data-in full and empty, status, unmapped, RAM. That status bits 7:2 read 0 is the spec's own
inference (log 11), and the event kinds are its decision D5 (log 16). -/
def Obligations.ControllerReads : Prop :=
  ∀ s : State,
    (∀ p b, (s.port p).inbound = some b → ∃ t, memRead (dataInAddress p) s = (b, t) ∧
      OnlyPort p s t ∧ t.port p = { s.port p with inbound := none }) ∧
    (∀ p, (s.port p).inbound = none →
      memRead (dataInAddress p) s = (0#8, { s with events := s.events ++ [.readEmptyPort p] })) ∧
    (∀ p, memRead (dataOutAddress p) s =
      ((if (s.port p).inbound = none then 0#8 else 2#8) ||| (if (s.port p).outbound = none then 1#8 else 0#8), s)) ∧
    (∀ a : Byte, 0x04 ≤ a.toNat → a.toNat ≤ 0xEF →
      memRead a s = (0#8, { s with events := s.events ++ [.readUnmapped a] })) ∧
    (∀ a : Byte, 0xF0 ≤ a.toNat → memRead a s = (ramRead a s, s))

/-- 20_memory.md R45: the two status bits, the six bits above them, and no effect. -/
def Obligations.StatusByteBits : Prop :=
  ∀ (p : PortId) (s : State), ∃ v, memRead (dataOutAddress p) s = (v, s) ∧
    (v.getLsbD 1 = true ↔ ∃ b, (s.port p).inbound = some b) ∧
    (v.getLsbD 0 = true ↔ (s.port p).outbound = none) ∧
    ∀ k, 2 ≤ k → k < 8 → v.getLsbD k = false

/-- 20_memory.md R47: a RAM read answers the cell and changes nothing; a RAM write sets that cell, and nothing else. -/
def Obligations.RamCells : Prop :=
  ∀ (s : State) (a : Byte), Memory.wf s.mem → 0xF0 ≤ a.toNat →
    memRead a s = (ramRead a s, s) ∧
    ∀ v, ∃ m, memWrite a v s = { s with mem := m } ∧ Memory.wf m ∧
      ∀ b, ramRead b (memWrite a v s) = if b = a then v else ramRead b s

/-- 20_memory.md R51: a data-out write overwrites the outbound slot, and does nothing else. -/
def Obligations.DataOutWriteOverwrites : Prop :=
  ∀ (p : PortId) (v : Byte) (s : State),
    OnlyPort p s (memWrite (dataOutAddress p) v s) ∧
    (memWrite (dataOutAddress p) v s).port p = { s.port p with outbound := some v }

/-- 20_memory.md R49, R50: a write to an unmapped or an even port address changes no state; the event kind is the spec's decision
D5 (log 16). -/
def Obligations.UnmappedWritesOnlyReport : Prop :=
  ∀ (a v : Byte) (s : State), a = 0x00#8 ∨ a = 0x02#8 ∨ (0x04 ≤ a.toNat ∧ a.toNat ≤ 0xEF) →
    memWrite a v s = { s with events := s.events ++ [.writeUnmapped a] }

/-! ### Loads and stores -/

/-- 41_load_store.md R110: LD writes what the controller answers for x[B], with the read's side effect kept. -/
def Obligations.LdLoadsIndirect : Prop :=
  ∀ (w : Word) (s : State), fieldOp w = 0x0#4 → ∃ d t, decode w = .ld d ∧ exec (.ld d) s = .next t ∧
    OnlyReg (fieldA w) (memRead (regRead (fieldB w) s) s).1 s t ∧ SameRam s t ∧
    (∀ p, t.port p = (memRead (regRead (fieldB w) s) s).2.port p) ∧
    t.events = (memRead (regRead (fieldB w) s) s).2.events ∧
    t.pc = s.pc + 1#8 ∧ PipelineMoved s t

/-- 41_load_store.md R112: LDX, the same at x[7] + sext_8(B) modulo 256. -/
def Obligations.LdxLoadsIndexed : Prop :=
  ∀ (w : Word) (s : State), fieldOp w = 0x2#4 → ∃ d t, decode w = .ldx d ∧ exec (.ldx d) s = .next t ∧
    OnlyReg (fieldA w) (memRead (regRead 7#4 s + (fieldB w).signExtend 8) s).1 s t ∧ SameRam s t ∧
    (∀ p, t.port p = (memRead (regRead 7#4 s + (fieldB w).signExtend 8) s).2.port p) ∧
    t.events = (memRead (regRead 7#4 s + (fieldB w).signExtend 8) s).2.events ∧
    t.pc = s.pc + 1#8 ∧ PipelineMoved s t

/-- What storing `v` at address `a` does, region by region (20_memory.md R42, R47 to R51). That the event is WriteUnmapped, for an
unmapped address and for the even port addresses 0x00 and 0x02 alike, is the spec's decision D5 (log 16). -/
def StoredAt (a v : Byte) (s t : State) : Prop :=
  (∀ b, b ≠ a → ramRead b t = ramRead b s) ∧
  (0xF0 ≤ a.toNat → ramRead a t = v) ∧
  (a.toNat < 0xF0 → SameRam s t) ∧
  (∀ p, t.port p = if a = dataOutAddress p then { s.port p with outbound := some v } else s.port p) ∧
  t.events = (if a = 0x01#8 ∨ a = 0x03#8 ∨ 0xF0 ≤ a.toNat then s.events else s.events ++ [.writeUnmapped a])

/-- 41_load_store.md R111: ST stores x[A] at x[B]. The kind of event `StoredAt` says, for 0x00 and 0x02 as for an unmapped address,
is decision D5 (log 16). -/
def Obligations.StStoresIndirect : Prop :=
  ∀ (w : Word) (s : State), Memory.wf s.mem → fieldOp w = 0x1#4 → ∃ d t, decode w = .st d ∧ exec (.st d) s = .next t ∧
    StoredAt (regRead (fieldB w) s) (regRead (fieldA w) s) s t ∧ SameRegs s t ∧
    t.pc = s.pc + 1#8 ∧ PipelineMoved s t

/-- 41_load_store.md R113: STX stores x[A] at x[7] + sext_8(B) modulo 256. The kind of event `StoredAt` says, for 0x00 and 0x02 as
for an unmapped address, is decision D5 (log 16). -/
def Obligations.StxStoresIndexed : Prop :=
  ∀ (w : Word) (s : State), Memory.wf s.mem → fieldOp w = 0x3#4 → ∃ d t, decode w = .stx d ∧ exec (.stx d) s = .next t ∧
    StoredAt (regRead 7#4 s + (fieldB w).signExtend 8) (regRead (fieldA w) s) s t ∧ SameRegs s t ∧
    t.pc = s.pc + 1#8 ∧ PipelineMoved s t

/-! ### The reserved opcode and control transfers -/

/-- 60_exceptions.md R151: RSV4 sets FATAL and everything else keeps its value. The source leaves the behaviour open; FATAL is the
spec's decision D3, and that the model answers a next state is log 1. -/
def Obligations.Rsv4RaisesFatal : Prop :=
  ∀ (w : Word) (s : State), fieldOp w = 0x4#4 → ∃ d, decode w = .rsv4 d ∧ exec (.rsv4 d) s = .next { s with fatal := true }

/-- 42_control.md R121: JMP assigns x[B] to pc, whatever field A holds. -/
def Obligations.JmpAssignsPc : Prop :=
  ∀ (w : Word) (s : State), fieldOp w = 0x5#4 → ∃ d t, decode w = .jmp d ∧ exec (.jmp d) s = .next t ∧
    t.pc = regRead (fieldB w) s ∧ SameRegs s t ∧ NoDataAccess s t ∧ PipelineMoved s t

/-- 42_control.md R122: BNN adds sext_8(B) to pc when bit 7 of x[A] is clear, else 1. -/
def Obligations.BnnBranchesOnClearSign : Prop :=
  ∀ (w : Word) (s : State), fieldOp w = 0x6#4 → ∃ d t, decode w = .bnn d ∧ exec (.bnn d) s = .next t ∧
    t.pc = (if (regRead (fieldA w) s).getLsbD 7 = false then s.pc + (fieldB w).signExtend 8 else s.pc + 1#8) ∧
    SameRegs s t ∧ NoDataAccess s t ∧ PipelineMoved s t

/-- 42_control.md R123: JR adds sext_8(B) to pc, always. -/
def Obligations.JrAddsIncrement : Prop :=
  ∀ (w : Word) (s : State), fieldOp w = 0x7#4 → ∃ d t, decode w = .jr d ∧ exec (.jr d) s = .next t ∧
    t.pc = s.pc + (fieldB w).signExtend 8 ∧ SameRegs s t ∧ NoDataAccess s t ∧ PipelineMoved s t

/-! ### ALU -/

/-- What every ALU instruction does with its result (43_alu.md R131): x[A] takes it unless A is 0 or 8, and nothing else but the
pipeline moves. -/
def AluStep (w : Word) (result : Byte) (s t : State) : Prop :=
  OnlyReg (fieldA w) result s t ∧ NoDataAccess s t ∧ t.pc = s.pc + 1#8 ∧ PipelineMoved s t

/-- 43_alu.md R132. -/
def Obligations.AddWritesWrappedSum : Prop :=
  ∀ (w : Word) (s : State), fieldOp w = 0x8#4 → ∃ d t, decode w = .add d ∧ exec (.add d) s = .next t ∧
    AluStep w (BitVec.ofNat 8 ((regRead (fieldA w) s).toNat + (regRead (fieldB w) s).toNat)) s t

/-- 43_alu.md R133. -/
def Obligations.NorWritesComplementOfOr : Prop :=
  ∀ (w : Word) (s : State), fieldOp w = 0x9#4 → ∃ d t, decode w = .nor d ∧ exec (.nor d) s = .next t ∧
    AluStep w (~~~(regRead (fieldA w) s ||| regRead (fieldB w) s)) s t

/-- 43_alu.md R134. -/
def Obligations.AddiAddsImmediate : Prop :=
  ∀ (w : Word) (s : State), fieldOp w = 0xA#4 → ∃ d t, decode w = .addi d ∧ exec (.addi d) s = .next t ∧
    AluStep w (BitVec.ofInt 8 ((regRead (fieldA w) s).toNat + (fieldB w).toInt)) s t

/-- 43_alu.md R135. -/
def Obligations.NoriNorsImmediate : Prop :=
  ∀ (w : Word) (s : State), fieldOp w = 0xB#4 → ∃ d t, decode w = .nori d ∧ exec (.nori d) s = .next t ∧
    AluStep w (~~~(regRead (fieldA w) s ||| (fieldB w).signExtend 8)) s t

/-- 43_alu.md R136: the wrapped 8-bit sum, halved with its sign kept. -/
def Obligations.AddhHalvesWrappedSum : Prop :=
  ∀ (w : Word) (s : State), fieldOp w = 0xC#4 → ∃ d t, decode w = .addh d ∧ exec (.addh d) s = .next t ∧
    AluStep w ((regRead (fieldA w) s + regRead (fieldB w) s).sshiftRight 1) s t

/-- 43_alu.md R137. -/
def Obligations.NorhHalvesNor : Prop :=
  ∀ (w : Word) (s : State), fieldOp w = 0xD#4 → ∃ d t, decode w = .norh d ∧ exec (.norh d) s = .next t ∧
    AluStep w ((~~~(regRead (fieldA w) s ||| regRead (fieldB w) s)).sshiftRight 1) s t

/-- 43_alu.md R138. -/
def Obligations.AddihHalvesImmediateSum : Prop :=
  ∀ (w : Word) (s : State), fieldOp w = 0xE#4 → ∃ d t, decode w = .addih d ∧ exec (.addih d) s = .next t ∧
    AluStep w ((regRead (fieldA w) s + (fieldB w).signExtend 8).sshiftRight 1) s t

/-- 43_alu.md R139: the result depends on field B alone; the old x[A] is not read. -/
def Obligations.NorihIgnoresOldRegister : Prop :=
  ∀ (w : Word) (s : State), fieldOp w = 0xF#4 → ∃ d t, decode w = .norih d ∧ exec (.norih d) s = .next t ∧
    AluStep w ((~~~((fieldB w).signExtend 8 : Byte)).sshiftRight 1) s t

/-- 30_encoding.md R84: the effects of the pseudo-instructions that transfer no control, from their expansions. The source has no
pseudo-instruction and no assembler: they, their expansions and X = 0 in the words are the spec's decisions D10 and D9 (log 14). -/
def Obligations.PseudoInstructionEffects : Prop :=
  ∀ (s : State) (a b : AsmReg) (i : Nibble),
    let run (p : Pseudo) (P : State → Prop) : Prop := ∃ t, execWords ((expand p).map assemble) s = .next t ∧ P t
    let only (v : Byte) (t : State) : Prop := OnlyReg (a.setWidth 4) v s t ∧ NoDataAccess s t
    run .nop (fun t => SameRegs s t ∧ NoDataAccess s t) ∧
    run (.clr a) (only 0#8) ∧
    run (.not a) (only (~~~regRead (a.setWidth 4) s)) ∧
    run (.shl a) (only (regRead (a.setWidth 4) s <<< 1)) ∧
    run (.neg a) (only (-regRead (a.setWidth 4) s)) ∧
    run (.li a i) (only (i.signExtend 8)) ∧
    (a ≠ b → run (.mov a b) (only (regRead (b.setWidth 4) s)))

/-! ### The sequencer -/

/-- 40_pipeline.md R91, R94: a step executes the decode latch. With a latch and a core that is not fatal, step is exec of the latch's
instruction; exec's answer already holds the decode, fetch and pc phases of that step (log 17). -/
def Obligations.StepExecutesDecodeLatch : Prop :=
  ∀ (s : State) (i : Instr), s.fatal = false → s.dl = some i → step s = exec i s

/-- 40_pipeline.md R92: with an empty decode latch nothing executes, and it is empty in the first two steps after reset. -/
def Obligations.EmptyLatchExecutesNothing : Prop :=
  (∀ s : State, s.fatal = false → s.dl = none → ∃ t, step s = .next t ∧ t.pc = s.pc + 1#8 ∧
    t.regs = s.regs ∧ t.mem = s.mem ∧ SamePorts s t ∧ t.events = s.events ∧ PipelineMoved s t) ∧
  ∀ r : Rom, (construct r).dl = none ∧ ∀ t, step (construct r) = .next t → t.dl = none

/-- 40_pipeline.md R95, R96: the latches after every step that is neither blocked nor fatal, with fetch from the pc and decode from the
fetch latch as they stood at the start of the step. R96 has every step fetch that R90 does not block; that the step which executes
RSV4 fetches and decodes nothing is R99 and 60_exceptions.md R151, the spec's decision D3 (log 1), hence `t.fatal = false`. -/
def Obligations.EveryStepDecodesAndFetches : Prop :=
  ∀ s t : State, step s = .next t → s.fatal = false → t.fatal = false → PipelineMoved s t

/-- 40_pipeline.md R90 (decision D3): a fatal core's step changes nothing. -/
def Obligations.FatalCoreNeverSteps : Prop := ∀ s : State, s.fatal = true → step s = .next s

/-- 40_pipeline.md R100: two steps of warm-up, then ROM[0] executes. -/
def Obligations.WarmUpFromReset : Prop :=
  ∀ r : Rom, ∃ s1 s2, step (construct r) = .next s1 ∧ step s1 = .next s2 ∧
    s1.pc = 1#8 ∧ s1.fl = some (romWord 0#8 (construct r)) ∧ s1.dl = none ∧
    s2.pc = 2#8 ∧ s2.fl = some (romWord 1#8 (construct r)) ∧ s2.dl = some (decode (romWord 0#8 (construct r))) ∧
    SameRegs (construct r) s2 ∧ NoDataAccess (construct r) s2 ∧
    step s2 = exec (decode (romWord 0#8 (construct r))) s2

/-- 40_pipeline.md R101: the word at pc in one step executes two steps later, unless the core is fatal before then. -/
def Obligations.FetchedWordExecutesTwoStepsLater : Prop :=
  ∀ s s1 s2 : State, step s = .next s1 → step s1 = .next s2 →
    s.fatal = false → s1.fatal = false → s2.fatal = false →
    step s2 = exec (decode (romWord s.pc s)) s2

/-- Where a control transfer sends pc (40_pipeline.md R103, R104, 42_control.md R121 to R123). -/
def transferTarget (w : Word) (s : State) : Byte :=
  if fieldOp w = 0x5#4 then regRead (fieldB w) s
  else if fieldOp w = 0x6#4 ∧ (regRead (fieldA w) s).getLsbD 7 = true then s.pc + 1#8
  else s.pc + (fieldB w).signExtend 8

/-- 40_pipeline.md R102: two delay slots, never annulled, taken or not: the words in the two places behind a control transfer execute
in the next two steps, and the word at its target in the third, as long as no step is fatal: a fatal step ends the sequence
(60_exceptions.md R151, decision D3, log 1). -/
def Obligations.TwoDelaySlotsAlwaysExecute : Prop :=
  ∀ (s s1 s2 s3 : State) (w f : Word), fieldOp w = 0x5#4 ∨ fieldOp w = 0x6#4 ∨ fieldOp w = 0x7#4 →
    s.fatal = false → s.dl = some (decode w) → s.fl = some f →
    step s = .next s1 → step s1 = .next s2 → step s2 = .next s3 → s2.fatal = false → s3.fatal = false →
    s1.pc = transferTarget w s ∧
    step s1 = exec (decode f) s1 ∧
    step s2 = exec (decode (romWord s.pc s)) s2 ∧
    step s3 = exec (decode (romWord (transferTarget w s) s)) s3

/-- 40_pipeline.md R105: a JR in the delay slot of a JR takes its base from the pc the first one set; the words that then execute stand
at pc, pc + k1 and pc + k1 + k2, as long as no step is fatal (60_exceptions.md R151, decision D3, log 1). -/
def Obligations.JrInDelaySlotOfJr : Prop :=
  ∀ (s s1 s2 s3 s4 : State) (w1 w2 : Word), fieldOp w1 = 0x7#4 → fieldOp w2 = 0x7#4 →
    s.fatal = false → s.dl = some (decode w1) → s.fl = some w2 →
    step s = .next s1 → step s1 = .next s2 → step s2 = .next s3 → step s3 = .next s4 →
    s3.fatal = false → s4.fatal = false →
    s1.pc = s.pc + (fieldB w1).signExtend 8 ∧
    s2.pc = s.pc + (fieldB w1).signExtend 8 + (fieldB w2).signExtend 8 ∧
    step s2 = exec (decode (romWord s.pc s)) s2 ∧
    step s3 = exec (decode (romWord (s.pc + (fieldB w1).signExtend 8) s)) s3 ∧
    step s4 = exec (decode (romWord (s.pc + (fieldB w1).signExtend 8 + (fieldB w2).signExtend 8) s)) s4

/-- 70_reset_and_hazards.md R176: a RAM store in one step is seen by the load of the next. -/
def Obligations.StoreSeenByNextLoad : Prop :=
  ∀ (s : State) (w1 w2 : Word), Memory.wf s.mem → s.fatal = false →
    fieldOp w1 = 0x1#4 → fieldOp w2 = 0x0#4 → s.dl = some (decode w1) → s.fl = some w2 →
    regRead (fieldB w2) s = regRead (fieldB w1) s → 0xF0 ≤ (regRead (fieldB w1) s).toNat →
    ∃ t u, step s = .next t ∧ step t = .next u ∧ OnlyReg (fieldA w2) (regRead (fieldA w1) s) s u

/-! ### Rules over the whole machine -/

/-- THE INVARIANT: every step from a state with the invariant leaves one (20_memory.md R42, 10_state.md R28, R29, R31, R37). The canonical form
of RAM and ROM is the model's (logs 2, 3); that FATAL comes with an RSV4 kept in DL is 60_exceptions.md R151, decision D3 (logs 1, 19). -/
def Obligations.StepKeepsInvariant : Prop := ∀ s t : State, Invariant s → step s = .next t → Invariant t

/-- The same of every action, not the step alone: the host's four port operations on any index (20_memory.md R56 to R61), which may fall
between any two steps, and a reset of the running core, which is the spec's decision D2 (log 12). -/
def Obligations.ActionKeepsInvariant : Prop :=
  ∀ (act : Action) (s t : State), Invariant s → perform act s = .next t → Invariant t

/-- 10_state.md R39: the invariant holds after reset, with no image (log 2) and with every image in canonical form. -/
def Obligations.ResetHasInvariant : Prop := Invariant State.reset ∧ ∀ r : Rom, Rom.wf r → Invariant (construct r)

/-- The invariant holds of every state that any image, any host schedule, any resets and any number of steps can lead to
(60_exceptions.md R167, 20_memory.md R61). A reset during a run is the spec's decision D2 (log 12). -/
def Obligations.ReachableStatesHaveInvariant : Prop := ∀ t : State, Reachable t → Invariant t

/-- 20_memory.md R67: no step and no host action changes the ROM. That a reset keeps it is the spec's decision D2 (log 12). -/
def Obligations.RomNeverChanges : Prop := ∀ (act : Action) (s t : State), perform act s = .next t → t.rom = s.rom

/-- 42_control.md R124, 40_pipeline.md R94: only opcodes 0x5 to 0x7, and the fatal opcode and state (decision D3, log 1), keep pc from
advancing by one. -/
def Obligations.OnlyTransfersMovePc : Prop :=
  ∀ s t : State, step s = .next t → t.pc ≠ s.pc + 1#8 →
    s.fatal = true ∨ ∃ i, s.dl = some i ∧ i.op ∈ [0x4#4, 0x5#4, 0x6#4, 0x7#4]

/-- 20_memory.md R41: instructions other than LD, ST, LDX, STX make no data access, and of these four only the stores write RAM. -/
def Obligations.OnlyLoadsAndStoresReachData : Prop :=
  ∀ (i : Instr) (s t : State), exec i s = .next t →
    (i.op ∉ [0x0#4, 0x1#4, 0x2#4, 0x3#4] → NoDataAccess s t) ∧ (i.op ∉ [0x1#4, 0x3#4] → SameRam s t)

/-- 30_encoding.md R76: stores, the reserved opcode and control transfers never write a register; no instruction writes a register
other than the one field A names. -/
def Obligations.OnlyResultsReachRegisters : Prop :=
  ∀ (i : Instr) (s t : State), exec i s = .next t →
    (i.op ∈ [0x1#4, 0x3#4, 0x4#4, 0x5#4, 0x6#4, 0x7#4] → SameRegs s t) ∧
    ∀ j, regIndex j ≠ regIndex i.operands.ra → regRead j t = regRead j s

/-- 30_encoding.md R80, 60_exceptions.md R151: FATAL is set by executing the reserved opcode and by nothing else. FATAL is the spec's decision
D3; that the step which sets it answers a next state is log 1. -/
def Obligations.OnlyReservedOpcodeIsFatal : Prop :=
  ∀ s t : State, step s = .next t → s.fatal = false →
    (t.fatal = true ↔ ∃ i, s.dl = some i ∧ i.op = 0x4#4)

/-- 20_memory.md R52, 60_exceptions.md R153: a step emits at most one event, and no behaviour depends on the events emitted before
(the list is the model's own, log 4). That the step which executes RSV4 completes too, with a next state where FATAL = 1, is log 1
(DEDUCED, from decision D3; 93_implementation_defined.md I1 calls it a fault). -/
def Obligations.EventsHaveNoEffect : Prop :=
  ∀ (s : State) (l : List Event), ∃ t d, step s = .next t ∧ t.events = s.events ++ d ∧ d.length ≤ 1 ∧
    step (withEvents l s) = .next (withEvents (l ++ d) t)

/-- 60_exceptions.md R150, 20_memory.md R60: a run whose host uses port indices 0 and 1 never stops with a fault or a refusal. That a
run which meets opcode 0x4 goes on, in states where FATAL = 1, is log 1 (DEDUCED, from 60_exceptions.md R151 and decision D3;
93_implementation_defined.md I1 calls it a fault), and that another index is refused is decision D6 (log 7). `verdict` says that a run
that ends with FATAL = 1 is not successful. -/
def Obligations.RunsComplete : Prop :=
  ∀ (acts : List Action) (s : State),
    (∀ act ∈ acts, match act with
      | .portWritable p | .portReadable p | .portWrite p _ | .portRead p => p = 0 ∨ p = 1
      | .step | .reset => True) →
    ∃ t, runActions acts s = .next t

/-- 10_state.md R37, R38, 60_exceptions.md R168 (decision D3): once FATAL is set, whatever the host does short of reset, FATAL stays and
nothing but the port slots can change. -/
def Obligations.FatalIsFinal : Prop :=
  ∀ (acts : List Action) (s t : State), s.fatal = true → Action.reset ∉ acts → runActions acts s = .next t →
    ∃ q0 q1, t = { s with port0 := q0, port1 := q1 }

/-! ### The host's side, reset and loading -/

/-- 20_memory.md R56, R57: the two status predicates. -/
def Obligations.PortPredicates : Prop :=
  ∀ (p : PortId) (s : State), ∃ x y, portWritable (hostIndex p) s = .next x ∧ portReadable (hostIndex p) s = .next y ∧
    (x = true ↔ (s.port p).inbound = none) ∧ (y = true ↔ ∃ b, (s.port p).outbound = some b)

/-- 20_memory.md R58, R59: port_write fills the inbound slot only; port_read takes and clears the outbound slot only. -/
def Obligations.PortTransfers : Prop :=
  ∀ (p : PortId) (s : State),
    (∀ b, ∃ t, portWrite (hostIndex p) b s = .next t ∧ OnlyPort p s t ∧ t.port p = { s.port p with inbound := some b }) ∧
    (∃ t, portRead (hostIndex p) s = .next ((s.port p).outbound, t) ∧ OnlyPort p s t ∧
      t.port p = { s.port p with outbound := none } ∧ ((s.port p).outbound = none → t = s))

/-- 20_memory.md R60 (decision D6, log 7): any other port index is refused, by name. -/
def Obligations.OtherPortIndicesRefused : Prop :=
  ∀ (p : Nat) (b : Byte) (s : State), 2 ≤ p →
    portWritable p s = .refused (.hostPortIndex p) ∧ portReadable p s = .refused (.hostPortIndex p) ∧
    portWrite p b s = .refused (.hostPortIndex p) ∧ portRead p s = .refused (.hostPortIndex p)

/-- 70_reset_and_hazards.md R178: a byte the host writes before a step is loaded by a LD from the data-in address in that step, and the
port is writable again. -/
def Obligations.HostByteReachesLoad : Prop :=
  ∀ (p : PortId) (b : Byte) (w : Word) (s : State), s.fatal = false → s.dl = some (decode w) → fieldOp w = 0x0#4 →
    regRead (fieldB w) s = dataInAddress p →
    ∃ t u, portWrite (hostIndex p) b s = .next t ∧ step t = .next u ∧ OnlyReg (fieldA w) b s u ∧
      portWritable (hostIndex p) u = .next true ∧ u.events = s.events

/-- 70_reset_and_hazards.md R178: a byte stored to the data-out address in a step is what the host reads after it. -/
def Obligations.StoredByteReachesHost : Prop :=
  ∀ (p : PortId) (w : Word) (s : State), s.fatal = false → s.dl = some (decode w) → fieldOp w = 0x1#4 →
    regRead (fieldB w) s = dataOutAddress p →
    ∃ t u, step s = .next t ∧ portRead (hostIndex p) t = .next (some (regRead (fieldA w) s), u) ∧
      portReadable (hostIndex p) u = .next false

/-- 10_state.md R25: every register reads 0 after reset. -/
def Obligations.RegistersZeroAfterReset : Prop := ∀ (r : Rom) (j : Nibble), regRead j (construct r) = 0#8

/-- 10_state.md R39, 70_reset_and_hazards.md R170: what reset leaves, at construction and at any later time. FATAL and a reset of a running
core are the spec's decisions D2 and D3, the empty event list is the model's (logs 4, 12). -/
def Obligations.ResetState : Prop :=
  (∀ r : Rom, (construct r).pc = 0#8 ∧ (construct r).fl = none ∧ (construct r).dl = none ∧
    (∀ a, ramRead a (construct r) = 0#8) ∧ (∀ p, (construct r).port p = ⟨none, none⟩) ∧
    (construct r).fatal = false ∧ (construct r).rom = r ∧ (construct r).events = []) ∧
  ∀ s : State, perform .reset s = .next (construct s.rom)

/-- 10_state.md R31, 70_reset_and_hazards.md R172: the ROM that an image of 256 words makes is in canonical form and reads as the image. -/
def Obligations.LoadedImageReadsBack : Prop :=
  ∀ ws : List Word, Rom.wf (loadImage ws) ∧
    (ws.length = 256 → ∀ a : Byte, ws[a.toNat]? = some (romWord a (construct (loadImage ws))))

/-- Log 8: the state withFetchWord makes runs the word in its very next step, from any state. -/
def Obligations.FetchWordRunsNext : Prop :=
  ∀ (s : State) (w : Word),
    step (s.withFetchWord 16 w.toNat) = exec (decode w) (s.withFetchWord 16 w.toNat) ∧
    decodeTableWord 16 w.toNat = some (decode w)

/-- Log 8: on the reset state, withFetchWord is the host's supply of a ROM whose word 0 is the given one, and two steps. -/
def Obligations.FetchWordIsWarmUp : Prop :=
  ∀ w : Word, ∃ r s1, Rom.wf r ∧ romWord 0#8 (construct r) = w ∧ (∀ a, a ≠ 0#8 → romWord a (construct r) = 0#16) ∧
    step (construct r) = .next s1 ∧ step s1 = .next (State.reset.withFetchWord 16 w.toNat)
end

