-- ==== Sys2Proof/Laws/State.lean ====
section
/-! SUPPORT. One lemma per field and per update of the state, true by rfl, so that no later proof unfolds a record update. -/

namespace Sys2Proof.Machine


/-! ### emit -/

@[simp] theorem emit_regs (e : Event) (s : State) : (emit e s).regs = s.regs := rfl
@[simp] theorem emit_pc (e : Event) (s : State) : (emit e s).pc = s.pc := rfl
@[simp] theorem emit_fl (e : Event) (s : State) : (emit e s).fl = s.fl := rfl
@[simp] theorem emit_dl (e : Event) (s : State) : (emit e s).dl = s.dl := rfl
@[simp] theorem emit_mem (e : Event) (s : State) : (emit e s).mem = s.mem := rfl
@[simp] theorem emit_port0 (e : Event) (s : State) : (emit e s).port0 = s.port0 := rfl
@[simp] theorem emit_port1 (e : Event) (s : State) : (emit e s).port1 = s.port1 := rfl
@[simp] theorem emit_fatal (e : Event) (s : State) : (emit e s).fatal = s.fatal := rfl
@[simp] theorem emit_rom (e : Event) (s : State) : (emit e s).rom = s.rom := rfl
@[simp] theorem emit_events (e : Event) (s : State) : (emit e s).events = s.events ++ [e] := rfl

/-! ### raiseFatal -/

@[simp] theorem raiseFatal_regs (s : State) : (raiseFatal s).regs = s.regs := rfl
@[simp] theorem raiseFatal_pc (s : State) : (raiseFatal s).pc = s.pc := rfl
@[simp] theorem raiseFatal_fl (s : State) : (raiseFatal s).fl = s.fl := rfl
@[simp] theorem raiseFatal_dl (s : State) : (raiseFatal s).dl = s.dl := rfl
@[simp] theorem raiseFatal_mem (s : State) : (raiseFatal s).mem = s.mem := rfl
@[simp] theorem raiseFatal_port0 (s : State) : (raiseFatal s).port0 = s.port0 := rfl
@[simp] theorem raiseFatal_port1 (s : State) : (raiseFatal s).port1 = s.port1 := rfl
@[simp] theorem raiseFatal_fatal (s : State) : (raiseFatal s).fatal = true := rfl
@[simp] theorem raiseFatal_rom (s : State) : (raiseFatal s).rom = s.rom := rfl
@[simp] theorem raiseFatal_events (s : State) : (raiseFatal s).events = s.events := rfl

/-! ### ramWrite -/

@[simp] theorem ramWrite_regs (a v : Byte) (s : State) : (ramWrite a v s).regs = s.regs := rfl
@[simp] theorem ramWrite_pc (a v : Byte) (s : State) : (ramWrite a v s).pc = s.pc := rfl
@[simp] theorem ramWrite_fl (a v : Byte) (s : State) : (ramWrite a v s).fl = s.fl := rfl
@[simp] theorem ramWrite_dl (a v : Byte) (s : State) : (ramWrite a v s).dl = s.dl := rfl
@[simp] theorem ramWrite_mem (a v : Byte) (s : State) : (ramWrite a v s).mem = cellWrite Config.ramDefault s.mem a.toNat v := rfl
@[simp] theorem ramWrite_port0 (a v : Byte) (s : State) : (ramWrite a v s).port0 = s.port0 := rfl
@[simp] theorem ramWrite_port1 (a v : Byte) (s : State) : (ramWrite a v s).port1 = s.port1 := rfl
@[simp] theorem ramWrite_fatal (a v : Byte) (s : State) : (ramWrite a v s).fatal = s.fatal := rfl
@[simp] theorem ramWrite_rom (a v : Byte) (s : State) : (ramWrite a v s).rom = s.rom := rfl
@[simp] theorem ramWrite_events (a v : Byte) (s : State) : (ramWrite a v s).events = s.events := rfl

/-! ### fetchStage -/

@[simp] theorem fetchStage_regs (s : State) : (fetchStage s).regs = s.regs := rfl
@[simp] theorem fetchStage_pc (s : State) : (fetchStage s).pc = s.pc := rfl
@[simp] theorem fetchStage_fl (s : State) : (fetchStage s).fl = some (romWord s.pc s) := rfl
@[simp] theorem fetchStage_dl (s : State) : (fetchStage s).dl = s.dl := rfl
@[simp] theorem fetchStage_mem (s : State) : (fetchStage s).mem = s.mem := rfl
@[simp] theorem fetchStage_port0 (s : State) : (fetchStage s).port0 = s.port0 := rfl
@[simp] theorem fetchStage_port1 (s : State) : (fetchStage s).port1 = s.port1 := rfl
@[simp] theorem fetchStage_fatal (s : State) : (fetchStage s).fatal = s.fatal := rfl
@[simp] theorem fetchStage_rom (s : State) : (fetchStage s).rom = s.rom := rfl
@[simp] theorem fetchStage_events (s : State) : (fetchStage s).events = s.events := rfl

/-! ### applyPc_add -/

@[simp] theorem applyPc_add_regs (k : Byte) (s : State) : (applyPc (.add k) s).regs = s.regs := rfl
@[simp] theorem applyPc_add_pc (k : Byte) (s : State) : (applyPc (.add k) s).pc = s.pc + k := rfl
@[simp] theorem applyPc_add_fl (k : Byte) (s : State) : (applyPc (.add k) s).fl = s.fl := rfl
@[simp] theorem applyPc_add_dl (k : Byte) (s : State) : (applyPc (.add k) s).dl = s.dl := rfl
@[simp] theorem applyPc_add_mem (k : Byte) (s : State) : (applyPc (.add k) s).mem = s.mem := rfl
@[simp] theorem applyPc_add_port0 (k : Byte) (s : State) : (applyPc (.add k) s).port0 = s.port0 := rfl
@[simp] theorem applyPc_add_port1 (k : Byte) (s : State) : (applyPc (.add k) s).port1 = s.port1 := rfl
@[simp] theorem applyPc_add_fatal (k : Byte) (s : State) : (applyPc (.add k) s).fatal = s.fatal := rfl
@[simp] theorem applyPc_add_rom (k : Byte) (s : State) : (applyPc (.add k) s).rom = s.rom := rfl
@[simp] theorem applyPc_add_events (k : Byte) (s : State) : (applyPc (.add k) s).events = s.events := rfl

/-! ### applyPc_assign -/

@[simp] theorem applyPc_assign_regs (a : Byte) (s : State) : (applyPc (.assign a) s).regs = s.regs := rfl
@[simp] theorem applyPc_assign_pc (a : Byte) (s : State) : (applyPc (.assign a) s).pc = a := rfl
@[simp] theorem applyPc_assign_fl (a : Byte) (s : State) : (applyPc (.assign a) s).fl = s.fl := rfl
@[simp] theorem applyPc_assign_dl (a : Byte) (s : State) : (applyPc (.assign a) s).dl = s.dl := rfl
@[simp] theorem applyPc_assign_mem (a : Byte) (s : State) : (applyPc (.assign a) s).mem = s.mem := rfl
@[simp] theorem applyPc_assign_port0 (a : Byte) (s : State) : (applyPc (.assign a) s).port0 = s.port0 := rfl
@[simp] theorem applyPc_assign_port1 (a : Byte) (s : State) : (applyPc (.assign a) s).port1 = s.port1 := rfl
@[simp] theorem applyPc_assign_fatal (a : Byte) (s : State) : (applyPc (.assign a) s).fatal = s.fatal := rfl
@[simp] theorem applyPc_assign_rom (a : Byte) (s : State) : (applyPc (.assign a) s).rom = s.rom := rfl
@[simp] theorem applyPc_assign_events (a : Byte) (s : State) : (applyPc (.assign a) s).events = s.events := rfl

/-! ### construct -/

@[simp] theorem construct_regs (r : Rom) : (construct r).regs = State.reset.regs := rfl
@[simp] theorem construct_pc (r : Rom) : (construct r).pc = State.reset.pc := rfl
@[simp] theorem construct_fl (r : Rom) : (construct r).fl = State.reset.fl := rfl
@[simp] theorem construct_dl (r : Rom) : (construct r).dl = State.reset.dl := rfl
@[simp] theorem construct_mem (r : Rom) : (construct r).mem = State.reset.mem := rfl
@[simp] theorem construct_port0 (r : Rom) : (construct r).port0 = State.reset.port0 := rfl
@[simp] theorem construct_port1 (r : Rom) : (construct r).port1 = State.reset.port1 := rfl
@[simp] theorem construct_fatal (r : Rom) : (construct r).fatal = State.reset.fatal := rfl
@[simp] theorem construct_rom (r : Rom) : (construct r).rom = r := rfl
@[simp] theorem construct_events (r : Rom) : (construct r).events = State.reset.events := rfl

/-! ### setPort -/

@[simp] theorem port_port0 (s : State) : s.port .port0 = s.port0 := rfl
@[simp] theorem port_port1 (s : State) : s.port .port1 = s.port1 := rfl

theorem port_setPort (p p' : PortId) (q : Port) (s : State) :
    (s.setPort p q).port p' = if p' = p then q else s.port p' := by
  cases p <;> cases p' <;> rfl

@[simp] theorem port_setPort_self (p : PortId) (q : Port) (s : State) : (s.setPort p q).port p = q := by
  cases p <;> rfl

@[simp] theorem setPort_regs (p : PortId) (q : Port) (s : State) : (s.setPort p q).regs = s.regs := by cases p <;> rfl
@[simp] theorem setPort_pc (p : PortId) (q : Port) (s : State) : (s.setPort p q).pc = s.pc := by cases p <;> rfl
@[simp] theorem setPort_fl (p : PortId) (q : Port) (s : State) : (s.setPort p q).fl = s.fl := by cases p <;> rfl
@[simp] theorem setPort_dl (p : PortId) (q : Port) (s : State) : (s.setPort p q).dl = s.dl := by cases p <;> rfl
@[simp] theorem setPort_mem (p : PortId) (q : Port) (s : State) : (s.setPort p q).mem = s.mem := by cases p <;> rfl
@[simp] theorem setPort_fatal (p : PortId) (q : Port) (s : State) : (s.setPort p q).fatal = s.fatal := by cases p <;> rfl
@[simp] theorem setPort_rom (p : PortId) (q : Port) (s : State) : (s.setPort p q).rom = s.rom := by cases p <;> rfl
@[simp] theorem setPort_events (p : PortId) (q : Port) (s : State) : (s.setPort p q).events = s.events := by cases p <;> rfl

/-! ### decodeStage -/

@[simp] theorem decodeStage_regs (s : State) : (decodeStage s).regs = s.regs := by unfold decodeStage; split <;> rfl
@[simp] theorem decodeStage_pc (s : State) : (decodeStage s).pc = s.pc := by unfold decodeStage; split <;> rfl
@[simp] theorem decodeStage_fl (s : State) : (decodeStage s).fl = s.fl := by unfold decodeStage; split <;> rfl
@[simp] theorem decodeStage_mem (s : State) : (decodeStage s).mem = s.mem := by unfold decodeStage; split <;> rfl
@[simp] theorem decodeStage_port0 (s : State) : (decodeStage s).port0 = s.port0 := by unfold decodeStage; split <;> rfl
@[simp] theorem decodeStage_port1 (s : State) : (decodeStage s).port1 = s.port1 := by unfold decodeStage; split <;> rfl
@[simp] theorem decodeStage_fatal (s : State) : (decodeStage s).fatal = s.fatal := by unfold decodeStage; split <;> rfl
@[simp] theorem decodeStage_rom (s : State) : (decodeStage s).rom = s.rom := by unfold decodeStage; split <;> rfl
@[simp] theorem decodeStage_events (s : State) : (decodeStage s).events = s.events := by unfold decodeStage; split <;> rfl

/-- The decode latch after phase (2) (40_pipeline.md R95). -/
theorem decodeStage_dl (s : State) :
    (decodeStage s).dl = match s.fl with | some w => some (decode w) | none => s.dl := by
  unfold decodeStage; split <;> simp_all


/-! ### advance -/

@[simp] theorem advance_regs (u : PcUpdate) (s : State) : (advance u s).regs = s.regs := by cases u <;> simp [advance]
@[simp] theorem advance_mem (u : PcUpdate) (s : State) : (advance u s).mem = s.mem := by cases u <;> simp [advance]
@[simp] theorem advance_port0 (u : PcUpdate) (s : State) : (advance u s).port0 = s.port0 := by cases u <;> simp [advance]
@[simp] theorem advance_port1 (u : PcUpdate) (s : State) : (advance u s).port1 = s.port1 := by cases u <;> simp [advance]
@[simp] theorem advance_fatal (u : PcUpdate) (s : State) : (advance u s).fatal = s.fatal := by cases u <;> simp [advance]
@[simp] theorem advance_rom (u : PcUpdate) (s : State) : (advance u s).rom = s.rom := by cases u <;> simp [advance]
@[simp] theorem advance_events (u : PcUpdate) (s : State) : (advance u s).events = s.events := by cases u <;> simp [advance]

theorem romWord_congr (a : Byte) (s t : State) (h : t.rom = s.rom) : romWord a t = romWord a s := by
  simp [romWord, h]

@[simp] theorem advance_add_pc (k : Byte) (s : State) : (advance (.add k) s).pc = s.pc + k := by simp [advance]
@[simp] theorem advance_assign_pc (a : Byte) (s : State) : (advance (.assign a) s).pc = a := by simp [advance]

@[simp] theorem advance_fl (u : PcUpdate) (s : State) : (advance u s).fl = some (romWord s.pc s) := by
  cases u <;> simp [advance, romWord]

/-- The decode latch after phases (2) to (4) (40_pipeline.md R95). -/
theorem advance_dl (u : PcUpdate) (s : State) :
    (advance u s).dl = match s.fl with | some w => some (decode w) | none => s.dl := by
  cases u <;> simp [advance, decodeStage_dl]


/-! ### Reads that only look at one field -/

theorem regRead_congr (j : Nibble) {s t : State} (h : t.regs = s.regs) : regRead j t = regRead j s := by
  simp only [regRead, h]

theorem ramRead_congr (a : Byte) {s t : State} (h : t.mem = s.mem) : ramRead a t = ramRead a s := by
  simp only [ramRead, h]

theorem port_congr (p : PortId) {s t : State} (h0 : t.port0 = s.port0) (h1 : t.port1 = s.port1) :
    t.port p = s.port p := by
  cases p <;> assumption

@[simp] theorem regRead_advance (j : Nibble) (u : PcUpdate) (s : State) : regRead j (advance u s) = regRead j s :=
  regRead_congr j (by simp)

@[simp] theorem ramRead_advance (a : Byte) (u : PcUpdate) (s : State) : ramRead a (advance u s) = ramRead a s :=
  ramRead_congr a (by simp)

@[simp] theorem port_advance (p : PortId) (u : PcUpdate) (s : State) : (advance u s).port p = s.port p :=
  port_congr p (by simp) (by simp)

end Sys2Proof.Machine
end

