-- ==== Sys2Proof/Laws/Memory.lean ====
section
/-! SUPPORT. The lists of cells: reading after writing, and the canonical form, which every write keeps. -/

namespace Sys2Proof.Machine

variable {α : Type} {dflt : α}

/-- An address below every listed address reads as the default. -/
theorem cellRead_below {m : List (Nat × α)} {a : Nat} (h : ∀ c ∈ m, a < c.1) : cellRead dflt m a = dflt := by
  induction m with
  | nil => rfl
  | cons c m ih =>
    have hc := h c (by simp)
    simp only [cellRead, if_neg (show c.1 ≠ a by omega)]
    exact ih fun d hd => h d (by simp [hd])

variable [DecidableEq α]

/-- Reading after writing, on a list whose addresses rise. -/
theorem cellRead_cellWrite {m : List (Nat × α)} (hm : m.Pairwise fun c d => c.1 < d.1) (a b : Nat) (v : α) :
    cellRead dflt (cellWrite dflt m a v) b = if b = a then v else cellRead dflt m b := by
  induction m with
  | nil =>
    by_cases hv : v = dflt <;> by_cases hb : b = a <;> simp_all [cellRead, cellWrite, eq_comm]
  | cons c m ih =>
    obtain ⟨k, x⟩ := c
    rw [List.pairwise_cons] at hm
    have hlow : ∀ e, e ≤ k → cellRead dflt m e = dflt := fun e he =>
      cellRead_below fun d hd => Nat.lt_of_le_of_lt he (hm.1 d hd)
    have ih := ih hm.2
    rcases Nat.lt_trichotomy a k with h | h | h
    · by_cases hv : v = dflt
      · by_cases hb : b = a
        · subst hb; simp [cellWrite, h, hv, cellRead, Nat.ne_of_gt h, hlow b h.le]
        · simp [cellWrite, h, hv, hb]
      · by_cases hb : b = a
        · subst hb; simp [cellWrite, h, hv, cellRead]
        · simp [cellWrite, h, hv, cellRead, hb, Ne.symm hb]
    · subst h
      by_cases hv : v = dflt
      · by_cases hb : b = a
        · subst hb; simp [cellWrite, hv, hlow b (Nat.le_refl b)]
        · simp [cellWrite, hv, cellRead, hb, Ne.symm hb]
      · by_cases hb : b = a
        · subst hb; simp [cellWrite, hv, cellRead]
        · simp [cellWrite, hv, cellRead, hb, Ne.symm hb]
    · have hnl : ¬ a < k := by omega
      have hne : a ≠ k := by omega
      simp only [cellWrite, if_neg hnl, if_neg hne, cellRead, ih]
      by_cases hb : k = b
      · subst hb; simp [Ne.symm hne]
      · simp [hb]

/-- Every entry after a write is an old entry or the new one, which is then not the default. -/
theorem mem_cellWrite {m : List (Nat × α)} {a : Nat} {v : α} {c : Nat × α} (h : c ∈ cellWrite dflt m a v) :
    c ∈ m ∨ (c = (a, v) ∧ v ≠ dflt) := by
  induction m with
  | nil => by_cases hv : v = dflt <;> simp_all [cellWrite]
  | cons e m ih =>
    obtain ⟨k, x⟩ := e
    simp only [cellWrite] at h
    split at h
    · split at h
      · exact .inl h
      · rcases List.mem_cons.mp h with h | h
        · exact .inr ⟨h, ‹_›⟩
        · exact .inl h
    · split at h
      · split at h
        · exact .inl (List.mem_cons_of_mem _ h)
        · rcases List.mem_cons.mp h with h | h
          · exact .inr ⟨h, ‹_›⟩
          · exact .inl (List.mem_cons_of_mem _ h)
      · rcases List.mem_cons.mp h with h | h
        · exact .inl (by simp [h])
        · rcases ih h with h | h
          · exact .inl (List.mem_cons_of_mem _ h)
          · exact .inr h

/-- A write at an address in range keeps the canonical form. -/
theorem cellWrite_wf {lo hi : Nat} {m : List (Nat × α)} (hm : cellsWf dflt lo hi m) {a : Nat} (v : α)
    (hlo : lo ≤ a) (hhi : a < hi) : cellsWf dflt lo hi (cellWrite dflt m a v) := by
  obtain ⟨hp, hr⟩ := hm
  refine ⟨?_, fun c hc => ?_⟩
  · clear hr
    induction m with
    | nil => by_cases hv : v = dflt <;> simp [cellWrite, hv]
    | cons c m ih =>
      obtain ⟨k, x⟩ := c
      rw [List.pairwise_cons] at hp
      rcases Nat.lt_trichotomy a k with h | h | h
      · by_cases hv : v = dflt
        · simpa [cellWrite, h, hv] using hp
        · simp only [cellWrite, h, hv, if_true, if_false, List.pairwise_cons]
          refine ⟨fun d hd => ?_, hp⟩
          rcases List.mem_cons.mp hd with rfl | hd
          · exact h
          · exact Nat.lt_trans h (hp.1 d hd)
      · subst h
        by_cases hv : v = dflt
        · simpa [cellWrite, hv] using hp.2
        · simpa [cellWrite, hv, List.pairwise_cons] using hp
      · have hnl : ¬ a < k := by omega
        have hne : a ≠ k := by omega
        simp only [cellWrite, if_neg hnl, if_neg hne, List.pairwise_cons]
        refine ⟨fun d hd => ?_, ih hp.2⟩
        rcases mem_cellWrite hd with hd | ⟨rfl, -⟩
        · exact hp.1 d hd
        · exact h
  · rcases mem_cellWrite hc with hc | ⟨rfl, hv⟩
    · exact hr c hc
    · exact ⟨hlo, hhi, hv⟩

/-- A RAM write at 0xF0..0xFF keeps the RAM's canonical form. -/
theorem ramWrite_wf {s : State} (h : Memory.wf s.mem) {a : Byte} (v : Byte) (ha : 0xF0 ≤ a.toNat) :
    Memory.wf (ramWrite a v s).mem :=
  cellWrite_wf h v ha (by have := a.isLt; simp [Config.ramCells]; omega)

/-- Reading a RAM cell after writing one. -/
theorem ramRead_ramWrite {s : State} (h : Memory.wf s.mem) (a b v : Byte) :
    ramRead b (ramWrite a v s) = if b = a then v else ramRead b s := by
  simp only [ramRead, ramWrite_mem, cellRead_cellWrite h.1, BitVec.toNat_inj]

end Sys2Proof.Machine
end

