-- ==== Sys2Proof/Laws/Registers.lean ====
section
/-! SUPPORT. What reading and writing a register can do (10_state.md R21 to R23). -/

namespace Sys2Proof.Machine

/-- A write changes the register cells only. -/
theorem regWrite_eq (i : Nibble) (v : Byte) (s : State) : ∃ r, regWrite i v s = { s with regs := r } := by
  unfold regWrite
  split <;> exact ⟨_, rfl⟩

@[simp] theorem regWrite_pc (i : Nibble) (v : Byte) (s : State) : (regWrite i v s).pc = s.pc := by
  obtain ⟨r, h⟩ := regWrite_eq i v s; rw [h]
@[simp] theorem regWrite_fl (i : Nibble) (v : Byte) (s : State) : (regWrite i v s).fl = s.fl := by
  obtain ⟨r, h⟩ := regWrite_eq i v s; rw [h]
@[simp] theorem regWrite_dl (i : Nibble) (v : Byte) (s : State) : (regWrite i v s).dl = s.dl := by
  obtain ⟨r, h⟩ := regWrite_eq i v s; rw [h]
@[simp] theorem regWrite_mem (i : Nibble) (v : Byte) (s : State) : (regWrite i v s).mem = s.mem := by
  obtain ⟨r, h⟩ := regWrite_eq i v s; rw [h]
@[simp] theorem regWrite_port0 (i : Nibble) (v : Byte) (s : State) : (regWrite i v s).port0 = s.port0 := by
  obtain ⟨r, h⟩ := regWrite_eq i v s; rw [h]
@[simp] theorem regWrite_port1 (i : Nibble) (v : Byte) (s : State) : (regWrite i v s).port1 = s.port1 := by
  obtain ⟨r, h⟩ := regWrite_eq i v s; rw [h]
@[simp] theorem regWrite_fatal (i : Nibble) (v : Byte) (s : State) : (regWrite i v s).fatal = s.fatal := by
  obtain ⟨r, h⟩ := regWrite_eq i v s; rw [h]
@[simp] theorem regWrite_rom (i : Nibble) (v : Byte) (s : State) : (regWrite i v s).rom = s.rom := by
  obtain ⟨r, h⟩ := regWrite_eq i v s; rw [h]
@[simp] theorem regWrite_events (i : Nibble) (v : Byte) (s : State) : (regWrite i v s).events = s.events := by
  obtain ⟨r, h⟩ := regWrite_eq i v s; rw [h]

/-- Index 0 and index 8 discard what is written (10_state.md R23). -/
theorem regWrite_discarded (i : Nibble) (v : Byte) (s : State) (h : regIndex i = 0#3) : regWrite i v s = s := by
  simp [regWrite, h]

/-- The eight values of a 3-bit index. -/
theorem index_cases (j : BitVec 3) :
    j = 0#3 ∨ j = 1#3 ∨ j = 2#3 ∨ j = 3#3 ∨ j = 4#3 ∨ j = 5#3 ∨ j = 6#3 ∨ j = 7#3 := by
  revert j; decide

/-- Writing back changes the register cells only, and through `ra` only if the descriptor says so. -/
theorem writeBack_eq (d : Operands) (v : Byte) (s : State) :
    writeBack d v s = if d.writeBack then regWrite d.ra v s else s := rfl

@[simp] theorem writeBack_pc (d : Operands) (v : Byte) (s : State) : (writeBack d v s).pc = s.pc := by
  unfold writeBack; split <;> simp
@[simp] theorem writeBack_fl (d : Operands) (v : Byte) (s : State) : (writeBack d v s).fl = s.fl := by
  unfold writeBack; split <;> simp
@[simp] theorem writeBack_dl (d : Operands) (v : Byte) (s : State) : (writeBack d v s).dl = s.dl := by
  unfold writeBack; split <;> simp
@[simp] theorem writeBack_mem (d : Operands) (v : Byte) (s : State) : (writeBack d v s).mem = s.mem := by
  unfold writeBack; split <;> simp
@[simp] theorem writeBack_port0 (d : Operands) (v : Byte) (s : State) : (writeBack d v s).port0 = s.port0 := by
  unfold writeBack; split <;> simp
@[simp] theorem writeBack_port1 (d : Operands) (v : Byte) (s : State) : (writeBack d v s).port1 = s.port1 := by
  unfold writeBack; split <;> simp
@[simp] theorem writeBack_fatal (d : Operands) (v : Byte) (s : State) : (writeBack d v s).fatal = s.fatal := by
  unfold writeBack; split <;> simp
@[simp] theorem writeBack_rom (d : Operands) (v : Byte) (s : State) : (writeBack d v s).rom = s.rom := by
  unfold writeBack; split <;> simp
@[simp] theorem writeBack_events (d : Operands) (v : Byte) (s : State) : (writeBack d v s).events = s.events := by
  unfold writeBack; split <;> simp

end Sys2Proof.Machine
end

