-- ==== Sys2Proof/Laws/Controller.lean ====
section
/-! SUPPORT. What the memory and port controller can do (20_memory.md R43, R48): one case analysis each for a read and for a
write, and the fields neither touches. -/

namespace Sys2Proof.Machine

/-- Taking the inbound byte (20_memory.md R44), both ways it can go. -/
theorem takeInbound_cases (p : PortId) (s : State) :
    (∃ b, (s.port p).inbound = some b ∧ takeInbound p s = (b, s.setPort p { s.port p with inbound := none })) ∨
    ((s.port p).inbound = none ∧ takeInbound p s = (0#8, emit (.readEmptyPort p) s)) := by
  unfold takeInbound
  split
  · exact .inl ⟨_, ‹_›, rfl⟩
  · exact .inr ⟨‹_›, rfl⟩

/-- Everything a controller read can do (20_memory.md R43). -/
theorem memRead_cases (a : Byte) (s : State) :
    (a < 0x04#8 ∧ a.getLsbD 0 = false ∧ memRead a s = takeInbound (portOf a) s) ∨
    (a < 0x04#8 ∧ a.getLsbD 0 = true ∧ memRead a s = (statusByte (s.port (portOf a)), s)) ∨
    (0x04#8 ≤ a ∧ a < 0xF0#8 ∧ memRead a s = (0#8, emit (.readUnmapped a) s)) ∨
    (0xF0#8 ≤ a ∧ memRead a s = (ramRead a s, s)) := by
  unfold memRead
  split
  · split
    · exact .inl ⟨‹_›, ‹_›, rfl⟩
    · exact .inr (.inl ⟨‹_›, Bool.eq_true_of_not_eq_false ‹¬ a.getLsbD 0 = false›, rfl⟩)
  · split
    · exact .inr (.inr (.inl ⟨BitVec.not_lt.mp ‹_›, ‹_›, rfl⟩))
    · exact .inr (.inr (.inr ⟨BitVec.not_lt.mp ‹_›, rfl⟩))

/-- Everything a controller write can do (20_memory.md R48). -/
theorem memWrite_cases (a v : Byte) (s : State) :
    (a < 0x04#8 ∧ a.getLsbD 0 = false ∧ memWrite a v s = emit (.writeUnmapped a) s) ∨
    (a < 0x04#8 ∧ a.getLsbD 0 = true ∧ memWrite a v s = putOutbound (portOf a) v s) ∨
    (0x04#8 ≤ a ∧ a < 0xF0#8 ∧ memWrite a v s = emit (.writeUnmapped a) s) ∨
    (0xF0#8 ≤ a ∧ memWrite a v s = ramWrite a v s) := by
  unfold memWrite
  split
  · split
    · exact .inl ⟨‹_›, ‹_›, rfl⟩
    · exact .inr (.inl ⟨‹_›, Bool.eq_true_of_not_eq_false ‹¬ a.getLsbD 0 = false›, rfl⟩)
  · split
    · exact .inr (.inr (.inl ⟨BitVec.not_lt.mp ‹_›, ‹_›, rfl⟩))
    · exact .inr (.inr (.inr ⟨BitVec.not_lt.mp ‹_›, rfl⟩))

/-- A read changes the ports and the event list at most. -/
theorem memRead_eq (a : Byte) (s : State) :
    ∃ p0 p1 es, (memRead a s).2 = { s with port0 := p0, port1 := p1, events := es } := by
  rcases memRead_cases a s with ⟨-, -, h⟩ | ⟨-, -, h⟩ | ⟨-, -, h⟩ | ⟨-, h⟩ <;> rw [h]
  · rcases takeInbound_cases (portOf a) s with ⟨b, -, h⟩ | ⟨-, h⟩ <;> rw [h]
    · cases portOf a <;> exact ⟨_, _, _, rfl⟩
    · exact ⟨_, _, _, rfl⟩
  · exact ⟨s.port0, s.port1, s.events, rfl⟩
  · exact ⟨_, _, _, rfl⟩
  · exact ⟨s.port0, s.port1, s.events, rfl⟩

/-- A write changes the RAM, the ports and the event list at most. -/
theorem memWrite_eq (a v : Byte) (s : State) :
    ∃ m p0 p1 es, memWrite a v s = { s with mem := m, port0 := p0, port1 := p1, events := es } := by
  rcases memWrite_cases a v s with ⟨-, -, h⟩ | ⟨-, -, h⟩ | ⟨-, -, h⟩ | ⟨-, h⟩ <;> rw [h]
  · exact ⟨s.mem, s.port0, s.port1, _, rfl⟩
  · unfold putOutbound
    cases portOf a <;> exact ⟨s.mem, _, _, s.events, rfl⟩
  · exact ⟨s.mem, s.port0, s.port1, _, rfl⟩
  · exact ⟨_, s.port0, s.port1, s.events, rfl⟩

@[simp] theorem memRead_regs (a : Byte) (s : State) : (memRead a s).2.regs = s.regs := by
  obtain ⟨_, _, _, h⟩ := memRead_eq a s; rw [h]
@[simp] theorem memRead_pc (a : Byte) (s : State) : (memRead a s).2.pc = s.pc := by
  obtain ⟨_, _, _, h⟩ := memRead_eq a s; rw [h]
@[simp] theorem memRead_fl (a : Byte) (s : State) : (memRead a s).2.fl = s.fl := by
  obtain ⟨_, _, _, h⟩ := memRead_eq a s; rw [h]
@[simp] theorem memRead_dl (a : Byte) (s : State) : (memRead a s).2.dl = s.dl := by
  obtain ⟨_, _, _, h⟩ := memRead_eq a s; rw [h]
@[simp] theorem memRead_mem (a : Byte) (s : State) : (memRead a s).2.mem = s.mem := by
  obtain ⟨_, _, _, h⟩ := memRead_eq a s; rw [h]
@[simp] theorem memRead_fatal (a : Byte) (s : State) : (memRead a s).2.fatal = s.fatal := by
  obtain ⟨_, _, _, h⟩ := memRead_eq a s; rw [h]
@[simp] theorem memRead_rom (a : Byte) (s : State) : (memRead a s).2.rom = s.rom := by
  obtain ⟨_, _, _, h⟩ := memRead_eq a s; rw [h]
@[simp] theorem memWrite_regs (a v : Byte) (s : State) : (memWrite a v s).regs = s.regs := by
  obtain ⟨_, _, _, _, h⟩ := memWrite_eq a v s; rw [h]
@[simp] theorem memWrite_pc (a v : Byte) (s : State) : (memWrite a v s).pc = s.pc := by
  obtain ⟨_, _, _, _, h⟩ := memWrite_eq a v s; rw [h]
@[simp] theorem memWrite_fl (a v : Byte) (s : State) : (memWrite a v s).fl = s.fl := by
  obtain ⟨_, _, _, _, h⟩ := memWrite_eq a v s; rw [h]
@[simp] theorem memWrite_dl (a v : Byte) (s : State) : (memWrite a v s).dl = s.dl := by
  obtain ⟨_, _, _, _, h⟩ := memWrite_eq a v s; rw [h]
@[simp] theorem memWrite_fatal (a v : Byte) (s : State) : (memWrite a v s).fatal = s.fatal := by
  obtain ⟨_, _, _, _, h⟩ := memWrite_eq a v s; rw [h]
@[simp] theorem memWrite_rom (a v : Byte) (s : State) : (memWrite a v s).rom = s.rom := by
  obtain ⟨_, _, _, _, h⟩ := memWrite_eq a v s; rw [h]

/-- A write keeps the RAM's canonical form. -/
theorem memWrite_wf {s : State} (h : Memory.wf s.mem) (a v : Byte) : Memory.wf (memWrite a v s).mem := by
  rcases memWrite_cases a v s with ⟨-, -, e⟩ | ⟨-, -, e⟩ | ⟨-, -, e⟩ | ⟨ha, e⟩ <;> rw [e]
  · simpa using h
  · simpa [putOutbound] using h
  · simpa using h
  · exact ramWrite_wf h v (by simpa [BitVec.le_def] using ha)

end Sys2Proof.Machine
end

