-- ==== Sys2Proof/Laws/Decode.lean ====
section
/-! SUPPORT. The decoder's result, opcode by opcode: the constructor and the five fields it carries. -/

namespace Sys2Proof

/-- The fields of a register-form word (30_encoding.md R72, R73). -/
theorem decodeOperands_reg {w : Word} {rf wb : Bool} (hi : immediateForm (fieldOp w) = false)
    (hr : readFirstOf (fieldOp w) = rf) (hw : writeBackOf (fieldOp w) = wb) :
    decodeOperands w = ⟨fieldA w, fieldB w, 0#8, rf, wb⟩ := by
  simp [decodeOperands, hi, hr, hw]

/-- The fields of an immediate-form word (30_encoding.md R72, R74). -/
theorem decodeOperands_imm {w : Word} {rf wb : Bool} (hi : immediateForm (fieldOp w) = true)
    (hr : readFirstOf (fieldOp w) = rf) (hw : writeBackOf (fieldOp w) = wb) :
    decodeOperands w = ⟨fieldA w, 15#4, sext8 (fieldB w), rf, wb⟩ := by
  simp [decodeOperands, hi, hr, hw, Config.forcedIndex]

/-- Packing the fields and taking one out again (30_encoding.md R71). -/
@[simp] theorem fieldOp_packFields (op a b : Nibble) : fieldOp (packFields op a b) = op := by
  apply BitVec.eq_of_getLsbD_eq
  intro k hk
  simp [fieldOp, packFields, hk, show 8 + k < 16 by omega, show 8 + k - 8 = k by omega, show ¬ 8 + k < 8 by omega,
    show ¬ 8 + k < 4 by omega, BitVec.getLsbD_of_ge a (8 + k - 4) (by omega), BitVec.getLsbD_of_ge b (8 + k) (by omega)]

@[simp] theorem fieldA_packFields (op a b : Nibble) : fieldA (packFields op a b) = a := by
  apply BitVec.eq_of_getLsbD_eq
  intro k hk
  simp [fieldA, packFields, hk, show 4 + k < 16 by omega, show 4 + k < 8 by omega, show 4 + k - 4 = k by omega,
    show ¬ 4 + k < 4 by omega]

@[simp] theorem fieldB_packFields (op a b : Nibble) : fieldB (packFields op a b) = b := by
  apply BitVec.eq_of_getLsbD_eq
  intro k hk
  simp [fieldB, packFields, hk, show k < 16 by omega, show k < 8 by omega]

/-- The packed fields of a word are the word with bits 15:12 cleared (30_encoding.md R71). -/
theorem packFields_fields (w : Word) : packFields (fieldOp w) (fieldA w) (fieldB w) = w &&& 0x0FFF#16 := by
  apply BitVec.eq_of_getLsbD_eq
  intro k hk
  interval_cases k <;> simp [packFields, fieldOp, fieldA, fieldB]

/-- `sext_8` is two's complement widening (00_scope.md R12). -/
theorem sext8_eq_signExtend (v : Nibble) : sext8 v = v.signExtend 8 := by
  revert v; decide

theorem decode_ld {w : Word} (h : fieldOp w = 0x0#4) : decode w = .ld ⟨fieldA w, fieldB w, 0#8, true, true⟩ := by
  simp only [decode, decodeOperands_reg (w := w) (rf := true) (wb := true) (by rw [h]; rfl) (by rw [h]; rfl) (by rw [h]; rfl), h]; rfl
theorem decode_st {w : Word} (h : fieldOp w = 0x1#4) : decode w = .st ⟨fieldA w, fieldB w, 0#8, true, false⟩ := by
  simp only [decode, decodeOperands_reg (w := w) (rf := true) (wb := false) (by rw [h]; rfl) (by rw [h]; rfl) (by rw [h]; rfl), h]; rfl
theorem decode_ldx {w : Word} (h : fieldOp w = 0x2#4) : decode w = .ldx ⟨fieldA w, 15#4, sext8 (fieldB w), true, true⟩ := by
  simp only [decode, decodeOperands_imm (w := w) (rf := true) (wb := true) (by rw [h]; rfl) (by rw [h]; rfl) (by rw [h]; rfl), h]; rfl
theorem decode_stx {w : Word} (h : fieldOp w = 0x3#4) : decode w = .stx ⟨fieldA w, 15#4, sext8 (fieldB w), true, false⟩ := by
  simp only [decode, decodeOperands_imm (w := w) (rf := true) (wb := false) (by rw [h]; rfl) (by rw [h]; rfl) (by rw [h]; rfl), h]; rfl
theorem decode_rsv4 {w : Word} (h : fieldOp w = 0x4#4) : decode w = .rsv4 ⟨fieldA w, fieldB w, 0#8, true, false⟩ := by
  simp only [decode, decodeOperands_reg (w := w) (rf := true) (wb := false) (by rw [h]; rfl) (by rw [h]; rfl) (by rw [h]; rfl), h]; rfl
theorem decode_jmp {w : Word} (h : fieldOp w = 0x5#4) : decode w = .jmp ⟨fieldA w, fieldB w, 0#8, true, false⟩ := by
  simp only [decode, decodeOperands_reg (w := w) (rf := true) (wb := false) (by rw [h]; rfl) (by rw [h]; rfl) (by rw [h]; rfl), h]; rfl
theorem decode_bnn {w : Word} (h : fieldOp w = 0x6#4) : decode w = .bnn ⟨fieldA w, 15#4, sext8 (fieldB w), true, false⟩ := by
  simp only [decode, decodeOperands_imm (w := w) (rf := true) (wb := false) (by rw [h]; rfl) (by rw [h]; rfl) (by rw [h]; rfl), h]; rfl
theorem decode_jr {w : Word} (h : fieldOp w = 0x7#4) : decode w = .jr ⟨fieldA w, 15#4, sext8 (fieldB w), false, false⟩ := by
  simp only [decode, decodeOperands_imm (w := w) (rf := false) (wb := false) (by rw [h]; rfl) (by rw [h]; rfl) (by rw [h]; rfl), h]; rfl
theorem decode_add {w : Word} (h : fieldOp w = 0x8#4) : decode w = .add ⟨fieldA w, fieldB w, 0#8, true, true⟩ := by
  simp only [decode, decodeOperands_reg (w := w) (rf := true) (wb := true) (by rw [h]; rfl) (by rw [h]; rfl) (by rw [h]; rfl), h]; rfl
theorem decode_nor {w : Word} (h : fieldOp w = 0x9#4) : decode w = .nor ⟨fieldA w, fieldB w, 0#8, true, true⟩ := by
  simp only [decode, decodeOperands_reg (w := w) (rf := true) (wb := true) (by rw [h]; rfl) (by rw [h]; rfl) (by rw [h]; rfl), h]; rfl
theorem decode_addi {w : Word} (h : fieldOp w = 0xa#4) : decode w = .addi ⟨fieldA w, 15#4, sext8 (fieldB w), true, true⟩ := by
  simp only [decode, decodeOperands_imm (w := w) (rf := true) (wb := true) (by rw [h]; rfl) (by rw [h]; rfl) (by rw [h]; rfl), h]; rfl
theorem decode_nori {w : Word} (h : fieldOp w = 0xb#4) : decode w = .nori ⟨fieldA w, 15#4, sext8 (fieldB w), true, true⟩ := by
  simp only [decode, decodeOperands_imm (w := w) (rf := true) (wb := true) (by rw [h]; rfl) (by rw [h]; rfl) (by rw [h]; rfl), h]; rfl
theorem decode_addh {w : Word} (h : fieldOp w = 0xc#4) : decode w = .addh ⟨fieldA w, fieldB w, 0#8, true, true⟩ := by
  simp only [decode, decodeOperands_reg (w := w) (rf := true) (wb := true) (by rw [h]; rfl) (by rw [h]; rfl) (by rw [h]; rfl), h]; rfl
theorem decode_norh {w : Word} (h : fieldOp w = 0xd#4) : decode w = .norh ⟨fieldA w, fieldB w, 0#8, true, true⟩ := by
  simp only [decode, decodeOperands_reg (w := w) (rf := true) (wb := true) (by rw [h]; rfl) (by rw [h]; rfl) (by rw [h]; rfl), h]; rfl
theorem decode_addih {w : Word} (h : fieldOp w = 0xe#4) : decode w = .addih ⟨fieldA w, 15#4, sext8 (fieldB w), true, true⟩ := by
  simp only [decode, decodeOperands_imm (w := w) (rf := true) (wb := true) (by rw [h]; rfl) (by rw [h]; rfl) (by rw [h]; rfl), h]; rfl
theorem decode_norih {w : Word} (h : fieldOp w = 0xf#4) : decode w = .norih ⟨fieldA w, 15#4, sext8 (fieldB w), false, true⟩ := by
  simp only [decode, decodeOperands_imm (w := w) (rf := false) (wb := true) (by rw [h]; rfl) (by rw [h]; rfl) (by rw [h]; rfl), h]; rfl

end Sys2Proof
end

