-- ==== Sys2Proof/Laws/Step.lean ====
section
/-! SUPPORT. What executing an instruction, and so a step, can do, said once: later proofs cite these and do not unfold the
sixteen meanings. -/

namespace Sys2Proof.Machine

/-- What phase (1) may change (40_pipeline.md R94): registers, RAM, ports and events, and of these the RAM stays canonical and
at most one event is added. -/
structure ExecutePhase (s m : State) : Prop where
  pc : m.pc = s.pc
  fl : m.fl = s.fl
  dl : m.dl = s.dl
  fatal : m.fatal = s.fatal
  rom : m.rom = s.rom
  mem : Memory.wf s.mem → Memory.wf m.mem
  events : m.events = s.events ∨ ∃ e, m.events = s.events ++ [e]

theorem executePhase_refl (s : State) : ExecutePhase s s :=
  ⟨rfl, rfl, rfl, rfl, rfl, id, .inl rfl⟩

theorem executePhase_writeBack {s m : State} (h : ExecutePhase s m) (d : Operands) (v : Byte) :
    ExecutePhase s (writeBack d v m) := by
  obtain ⟨hpc, hfl, hdl, hfatal, hrom, hmem, hev⟩ := h
  exact ⟨by simpa, by simpa, by simpa, by simpa, by simpa, fun w => by simpa using hmem w, by simpa⟩

theorem executePhase_memRead (a : Byte) (s : State) : ExecutePhase s (memRead a s).2 := by
  refine ⟨by simp, by simp, by simp, by simp, by simp, fun w => by simpa using w, ?_⟩
  rcases memRead_cases a s with ⟨-, -, h⟩ | ⟨-, -, h⟩ | ⟨-, -, h⟩ | ⟨-, h⟩ <;> rw [h]
  · rcases takeInbound_cases (portOf a) s with ⟨b, -, h⟩ | ⟨-, h⟩ <;> rw [h]
    · exact .inl (by simp)
    · exact .inr ⟨_, rfl⟩
  · exact .inl rfl
  · exact .inr ⟨_, rfl⟩
  · exact .inl rfl

theorem executePhase_memWrite (a v : Byte) (s : State) : ExecutePhase s (memWrite a v s) := by
  refine ⟨by simp, by simp, by simp, by simp, by simp, fun w => memWrite_wf w a v, ?_⟩
  rcases memWrite_cases a v s with ⟨-, -, h⟩ | ⟨-, -, h⟩ | ⟨-, -, h⟩ | ⟨-, h⟩ <;> rw [h]
  · exact .inr ⟨_, rfl⟩
  · exact .inl (by simp [putOutbound])
  · exact .inr ⟨_, rfl⟩
  · exact .inl rfl

/-- Everything executing an instruction can do: be fatal, or change what phase (1) may change and then advance. -/
theorem exec_cases (i : Instr) (s : State) :
    (isReserved i = true ∧ exec i s = .next (raiseFatal s)) ∨
    (isReserved i = false ∧ ∃ u m, exec i s = .next (advance u m) ∧ ExecutePhase s m) := by
  cases i with
  | rsv4 d => exact .inl ⟨rfl, rfl⟩
  | ld d => exact .inr ⟨rfl, _, _, rfl, executePhase_writeBack (executePhase_memRead _ _) _ _⟩
  | ldx d => exact .inr ⟨rfl, _, _, rfl, executePhase_writeBack (executePhase_memRead _ _) _ _⟩
  | st d => exact .inr ⟨rfl, _, _, rfl, executePhase_memWrite _ _ _⟩
  | stx d => exact .inr ⟨rfl, _, _, rfl, executePhase_memWrite _ _ _⟩
  | jmp d => exact .inr ⟨rfl, _, _, rfl, executePhase_refl s⟩
  | bnn d => exact .inr ⟨rfl, _, _, rfl, executePhase_refl s⟩
  | jr d => exact .inr ⟨rfl, _, _, rfl, executePhase_refl s⟩
  | add d => exact .inr ⟨rfl, _, _, rfl, executePhase_writeBack (executePhase_refl s) _ _⟩
  | nor d => exact .inr ⟨rfl, _, _, rfl, executePhase_writeBack (executePhase_refl s) _ _⟩
  | addi d => exact .inr ⟨rfl, _, _, rfl, executePhase_writeBack (executePhase_refl s) _ _⟩
  | nori d => exact .inr ⟨rfl, _, _, rfl, executePhase_writeBack (executePhase_refl s) _ _⟩
  | addh d => exact .inr ⟨rfl, _, _, rfl, executePhase_writeBack (executePhase_refl s) _ _⟩
  | norh d => exact .inr ⟨rfl, _, _, rfl, executePhase_writeBack (executePhase_refl s) _ _⟩
  | addih d => exact .inr ⟨rfl, _, _, rfl, executePhase_writeBack (executePhase_refl s) _ _⟩
  | norih d => exact .inr ⟨rfl, _, _, rfl, executePhase_writeBack (executePhase_refl s) _ _⟩

/-- Everything a step can do (40_pipeline.md R90 to R99). -/
theorem step_cases {s t : State} (h : step s = .next t) :
    (s.fatal = true ∧ t = s) ∨
    (s.fatal = false ∧ s.dl = none ∧ t = advance (.add 1#8) s) ∨
    (∃ i, s.fatal = false ∧ s.dl = some i ∧ isReserved i = true ∧ t = raiseFatal s) ∨
    (∃ i u m, s.fatal = false ∧ s.dl = some i ∧ isReserved i = false ∧ t = advance u m ∧ ExecutePhase s m) := by
  unfold step sequencer at h
  cases hf : s.fatal with
  | true => simp [hf] at h; exact .inl ⟨rfl, h.symm⟩
  | false =>
    cases hd : s.dl with
    | none => simp [hf, hd] at h; exact .inr (.inl ⟨rfl, rfl, h.symm⟩)
    | some i =>
      simp only [hf, hd, Bool.false_eq_true, if_false] at h
      rcases exec_cases i s with ⟨hr, e⟩ | ⟨hr, u, m, e, hm⟩
      · rw [e, Host.Outcome.next.injEq] at h
        exact .inr (.inr (.inl ⟨i, rfl, rfl, hr, h.symm⟩))
      · rw [e, Host.Outcome.next.injEq] at h
        exact .inr (.inr (.inr ⟨i, u, m, rfl, rfl, hr, h.symm, hm⟩))

end Sys2Proof.Machine
end

