-- ==== Sys2Proof/Laws/Host.lean ====
section
/-! SUPPORT. What the host's actions can do, said once, and the canonical form under reset and the filling of the pipeline. -/

namespace Sys2Proof.Machine

/-- Everything an action can do: step, reset, leave the state, or set one port (20_memory.md R56 to R61). -/
theorem perform_cases {act : Action} {s t : State} (h : perform act s = .next t) :
    (act = .step ∧ step s = .next t) ∨ (act = .reset ∧ t = construct s.rom) ∨ t = s ∨ ∃ p q, t = s.setPort p q := by
  cases act with
  | step => exact .inl ⟨rfl, h⟩
  | reset => exact .inr (.inl ⟨rfl, (Host.Outcome.next.inj h).symm⟩)
  | portWritable p =>
    simp only [perform, portWritable] at h
    cases hp : hostPort p <;> simp [hp, continueWith] at h
    exact .inr (.inr (.inl h.symm))
  | portReadable p =>
    simp only [perform, portReadable] at h
    cases hp : hostPort p <;> simp [hp, continueWith] at h
    exact .inr (.inr (.inl h.symm))
  | portWrite p b =>
    simp only [perform, portWrite] at h
    cases hp : hostPort p <;> simp [hp] at h
    exact .inr (.inr (.inr ⟨_, _, h.symm⟩))
  | portRead p =>
    simp only [perform, portRead] at h
    cases hp : hostPort p <;> simp [hp, continueWith] at h
    exact .inr (.inr (.inr ⟨_, _, h.symm⟩))

/-- A run of one action and more is that action and then the rest. -/
theorem runActions_cons {act : Action} {acts : List Action} {s t : State} (h : runActions (act :: acts) s = .next t) :
    ∃ m, perform act s = .next m ∧ runActions acts m = .next t := by
  unfold runActions at h
  split at h
  · exact ⟨_, ‹_›, h⟩
  · cases h
  · cases h

/-- The RAM and the ROM of the reset state are in canonical form. -/
theorem reset_memory_wf : Memory.wf State.reset.mem := by decide
theorem reset_rom_wf : Rom.wf State.reset.rom := by decide

/-- Placing a word for the next step keeps the ROM's canonical form and the RAM. -/
theorem fillPipeline_rom_wf {s : State} (h : Rom.wf s.rom) (w : Word) : Rom.wf (fillPipeline w s).rom :=
  cellWrite_wf h w (Nat.zero_le _) s.pc.isLt

@[simp] theorem fillPipeline_mem (w : Word) (s : State) : (fillPipeline w s).mem = s.mem := rfl
@[simp] theorem fillPipeline_dl (w : Word) (s : State) : (fillPipeline w s).dl = some (decode w) := rfl
@[simp] theorem fillPipeline_fatal (w : Word) (s : State) : (fillPipeline w s).fatal = false := rfl

end Sys2Proof.Machine
end

