-- ==== Sys2Proof/Laws/PerInstr.lean ====
section
/-! SUPPORT. Statements for all instructions, one lemma per constructor. -/

namespace Sys2Proof.Laws

/-- The top byte of an encoded instruction is its opcode, with X = 0 (30_encoding.md R71, R83). -/
def TopByte.Statement (i : Instr) : Prop := (encode i).extractLsb' 8 8 = i.op.setWidth 8

/-- The top byte does not depend on fields A and B. -/
theorem topByte_packFields (op a b : Nibble) : (packFields op a b).extractLsb' 8 8 = op.setWidth 8 := by
  apply BitVec.eq_of_getLsbD_eq
  intro k hk
  simp [packFields, hk, show 8 + k < 16 by omega, show ¬ 8 + k < 4 by omega,
    BitVec.getLsbD_of_ge a (8 + k - 4) (by omega), BitVec.getLsbD_of_ge b (8 + k) (by omega)]

theorem TopByte.ld (d : Operands) : TopByte.Statement (.ld d) := topByte_packFields _ _ _
theorem TopByte.st (d : Operands) : TopByte.Statement (.st d) := topByte_packFields _ _ _
theorem TopByte.ldx (d : Operands) : TopByte.Statement (.ldx d) := topByte_packFields _ _ _
theorem TopByte.stx (d : Operands) : TopByte.Statement (.stx d) := topByte_packFields _ _ _
theorem TopByte.rsv4 (d : Operands) : TopByte.Statement (.rsv4 d) := topByte_packFields _ _ _
theorem TopByte.jmp (d : Operands) : TopByte.Statement (.jmp d) := topByte_packFields _ _ _
theorem TopByte.bnn (d : Operands) : TopByte.Statement (.bnn d) := topByte_packFields _ _ _
theorem TopByte.jr (d : Operands) : TopByte.Statement (.jr d) := topByte_packFields _ _ _
theorem TopByte.add (d : Operands) : TopByte.Statement (.add d) := topByte_packFields _ _ _
theorem TopByte.nor (d : Operands) : TopByte.Statement (.nor d) := topByte_packFields _ _ _
theorem TopByte.addi (d : Operands) : TopByte.Statement (.addi d) := topByte_packFields _ _ _
theorem TopByte.nori (d : Operands) : TopByte.Statement (.nori d) := topByte_packFields _ _ _
theorem TopByte.addh (d : Operands) : TopByte.Statement (.addh d) := topByte_packFields _ _ _
theorem TopByte.norh (d : Operands) : TopByte.Statement (.norh d) := topByte_packFields _ _ _
theorem TopByte.addih (d : Operands) : TopByte.Statement (.addih d) := topByte_packFields _ _ _
theorem TopByte.norih (d : Operands) : TopByte.Statement (.norih d) := topByte_packFields _ _ _

end Sys2Proof.Laws
end

