-- ==== Sys2Proof/Tests/Slice0.lean ====
section
/-! SUPPORT. Tests of the model against the spec's own vectors (95_test_vectors.md; each test names its vector), the smoke tests of
`wellFormed`, one decoded word per constructor written out from the encoding (30_encoding.md R71, R83), and for every obligation with
hypotheses a state and operands that meet them. -/

namespace Sys2Proof.Tests

open Sys2Proof Sys2Proof.Machine

/-! ### Decoding: the words are written X, OP, A, B -/

theorem test_decode_ld : decode 0b0000000000110011#16 = .ld ⟨3#4, 3#4, 0#8, true, true⟩ := by decide
theorem test_decode_st : decode 0b0000000100010010#16 = .st ⟨1#4, 2#4, 0#8, true, false⟩ := by decide
theorem test_decode_ldx : decode 0b0000001001111000#16 = .ldx ⟨7#4, 15#4, 0xF8#8, true, true⟩ := by decide
theorem test_decode_stx : decode 0b0000001100011000#16 = .stx ⟨1#4, 15#4, 0xF8#8, true, false⟩ := by decide
theorem test_decode_rsv4 : decode 0b0000010000000000#16 = .rsv4 ⟨0#4, 0#4, 0#8, true, false⟩ := by decide
theorem test_decode_jmp : decode 0b0000010100000101#16 = .jmp ⟨0#4, 5#4, 0#8, true, false⟩ := by decide
theorem test_decode_bnn : decode 0b0000011000011100#16 = .bnn ⟨1#4, 15#4, 0xFC#8, true, false⟩ := by decide
theorem test_decode_jr : decode 0b0000011100001110#16 = .jr ⟨0#4, 15#4, 0xFE#8, false, false⟩ := by decide
theorem test_decode_add : decode 0b0000100011111001#16 = .add ⟨15#4, 9#4, 0#8, true, true⟩ := by decide
theorem test_decode_nor : decode 0b0000100100010111#16 = .nor ⟨1#4, 7#4, 0#8, true, true⟩ := by decide
theorem test_decode_addi : decode 0b0000101000010101#16 = .addi ⟨1#4, 15#4, 0x05#8, true, true⟩ := by decide
theorem test_decode_nori : decode 0b0000101100111111#16 = .nori ⟨3#4, 15#4, 0xFF#8, true, true⟩ := by decide
theorem test_decode_addh : decode 0b0000110000010010#16 = .addh ⟨1#4, 2#4, 0#8, true, true⟩ := by decide
theorem test_decode_norh : decode 0b0000110100000000#16 = .norh ⟨0#4, 0#4, 0#8, true, true⟩ := by decide
theorem test_decode_addih : decode 0b0000111001111111#16 = .addih ⟨7#4, 15#4, 0xFF#8, true, true⟩ := by decide
theorem test_decode_norih : decode 0b0000111100010010#16 = .norih ⟨1#4, 15#4, 0x02#8, false, true⟩ := by decide
/-- DC9: bits 15:12 are ignored. -/
theorem test_decode_ignores_top : decode 0b1111101000010101#16 = decode 0b0000101000010101#16 := by decide
theorem test_encode_stx : encode (.stx ⟨1#4, 15#4, 0xF8#8, true, false⟩) = 0x0318#16 := by decide
theorem test_table_word : decodeTableWord 16 0x0512 = some (.jmp ⟨1#4, 2#4, 0#8, true, false⟩) := by decide

/-! ### wellFormed refuses, one term per check -/

theorem test_refuses_readFirst : (Instr.norih ⟨1#4, 15#4, 2#8, true, true⟩).readFirstOk = false := by decide
theorem test_refuses_writeBack : (Instr.st ⟨1#4, 2#4, 0#8, true, true⟩).writeBackOk = false := by decide
theorem test_refuses_secondIndex : (Instr.addi ⟨1#4, 7#4, 5#8, true, true⟩).secondIndexOk = false := by decide
theorem test_refuses_wide_immediate : (Instr.addi ⟨1#4, 15#4, 8#8, true, true⟩).immediateOk = false := by decide
theorem test_refuses_reg_immediate : (Instr.add ⟨1#4, 2#4, 1#8, true, true⟩).immediateOk = false := by decide
theorem test_refused_wellFormed : (Instr.addi ⟨1#4, 15#4, 8#8, true, true⟩).wellFormed = false := by decide

/-! ### One step on a small state -/

/-- The reset state with r1, r2, r7 and the RAM given. -/
def small (r1 r2 r7 : Byte) (m : Memory) : State :=
  { State.reset with regs := ⟨r1, r2, 0#8, 0#8, 0#8, 0#8, r7⟩, mem := m }

/-- Executing the word answers a next state that the test accepts. -/
def runs (w : Word) (s : State) (p : State → Bool) : Bool :=
  match exec (decode w) s with
  | .next t => p t
  | _ => false

/-- LS1. -/
theorem test_ld : runs 0x0012#16 (small 0#8 0xF3#8 0#8 [(0xF3, 0x5C#8)]) (fun t => t.regs.r1 == 0x5C#8) = true := by decide
/-- LS15: the load into r0 still consumes the byte. -/
theorem test_ld_r0_consumes :
    runs 0x0000#16 { small 0#8 0#8 0#8 [] with port0 := ⟨some 0x77#8, none⟩ }
      (fun t => t.port0.inbound == none && t.regs == State.reset.regs && t.events == []) = true := by decide
/-- LS5. -/
theorem test_st_port : runs 0x0112#16 (small 0x5C#8 0x03#8 0#8 []) (fun t => t.port1.outbound == some 0x5C#8) = true := by decide
/-- LS4. -/
theorem test_st_ram : runs 0x0112#16 (small 0x5C#8 0xF3#8 0#8 []) (fun t => t.mem == [(0xF3, 0x5C#8)]) = true := by decide
/-- LS9: the address wraps to 0x00, whose slot is empty. -/
theorem test_ldx_wraps :
    runs 0x0231#16 (small 0#8 0#8 0xFF#8 [(0xF0, 0x44#8)])
      (fun t => t.regs.r3 == 0#8 && t.events == [.readEmptyPort .port0]) = true := by decide
/-- LS14: the base is read before it is overwritten. -/
theorem test_ldx_base_first :
    runs 0x0278#16 (small 0#8 0#8 0xF8#8 [(0xF0, 0x9A#8)]) (fun t => t.regs.r7 == 0x9A#8) = true := by decide
/-- LS11. -/
theorem test_stx_wraps :
    runs 0x0323#16 (small 0#8 0x66#8 0xFE#8 []) (fun t => t.port0.outbound == some 0x66#8) = true := by decide
/-- LS12. -/
theorem test_stx_ram : runs 0x0328#16 (small 0#8 0x0F#8 0#8 []) (fun t => t.mem == [(0xF8, 0x0F#8)]) = true := by decide
/-- CT4 and 42_control.md R122's example: `BNN r1, -4` executing with pc = 5 goes to 1. -/
theorem test_bnn_taken :
    runs 0x061C#16 { small 0x7F#8 0#8 0#8 [] with pc := 5#8 } (fun t => t.pc == 1#8) = true := by decide
/-- CT4. -/
theorem test_bnn_not_taken :
    runs 0x061C#16 { small 0x80#8 0#8 0#8 [] with pc := 5#8 } (fun t => t.pc == 6#8) = true := by decide
/-- P4 step 4. -/
theorem test_jmp : runs 0x0502#16 { small 0#8 6#8 0#8 [] with pc := 3#8 } (fun t => t.pc == 6#8) = true := by decide
/-- CT1: `JR -4` executing with pc = 3 goes to 0xFF. -/
theorem test_jr_wraps : runs 0x071C#16 { small 0#8 0#8 0#8 [] with pc := 3#8 } (fun t => t.pc == 0xFF#8) = true := by decide
/-- RF6: indices 15 and 9 are r7 and r1. -/
theorem test_add_aliases :
    runs 0x08F9#16 (small 0x10#8 0#8 0x22#8 []) (fun t => t.regs.r7 == 0x32#8 && t.regs.r1 == 0x10#8) = true := by decide
/-- A3. -/
theorem test_add_wraps : runs 0x0812#16 (small 0xFF#8 1#8 0#8 []) (fun t => t.regs.r1 == 0#8) = true := by decide
/-- A9. -/
theorem test_nor : runs 0x0912#16 (small 0x7F#8 1#8 0#8 []) (fun t => t.regs.r1 == 0x80#8) = true := by decide
/-- A30. -/
theorem test_addi_negative : runs 0x0A18#16 (small 0#8 0#8 0#8 []) (fun t => t.regs.r1 == 0xF8#8) = true := by decide
/-- A42. -/
theorem test_nori : runs 0x0B15#16 (small 0x0A#8 0#8 0#8 []) (fun t => t.regs.r1 == 0xF0#8) = true := by decide
/-- A16. -/
theorem test_addh_keeps_sign : runs 0x0C12#16 (small 0x7F#8 1#8 0#8 []) (fun t => t.regs.r1 == 0xC0#8) = true := by decide
/-- A17: the carry is lost before halving. -/
theorem test_addh_loses_carry : runs 0x0C12#16 (small 0xFF#8 1#8 0#8 []) (fun t => t.regs.r1 == 0#8) = true := by decide
/-- A25. -/
theorem test_norh : runs 0x0D12#16 (small 0x80#8 0x80#8 0#8 []) (fun t => t.regs.r1 == 0x3F#8) = true := by decide
/-- A49. -/
theorem test_addih : runs 0x0E17#16 (small 0x7C#8 0#8 0#8 []) (fun t => t.regs.r1 == 0xC1#8) = true := by decide
/-- A56: the old r1 is not read. -/
theorem test_norih : runs 0x0F11#16 (small 0x7F#8 0#8 0#8 []) (fun t => t.regs.r1 == 0xFF#8) = true := by decide
/-- A54. -/
theorem test_norih_negative : runs 0x0F18#16 (small 0#8 0#8 0#8 []) (fun t => t.regs.r1 == 0x03#8) = true := by decide
/-- CT7: step 3 sets FATAL and keeps pc = 2 and the latches. -/
theorem test_rsv4 :
    (match step (State.reset.withFetchWord 16 0x0400) with
      | .next t => t.fatal && t.pc == 2#8 && t.dl == some (.rsv4 ⟨0#4, 0#4, 0#8, true, false⟩) && t.regs == State.reset.regs
      | _ => false) = true := by decide
/-- W1 step 3. -/
theorem test_first_instruction :
    (match step (State.reset.withFetchWord 16 0x0A15) with
      | .next t => t.regs.r1 == 5#8 && t.pc == 3#8
      | _ => false) = true := by decide

/-! ### The controller and the host's side -/

/-- M6, M8. -/
theorem test_status_full : (memRead 0x01#8 { State.reset with port0 := ⟨some 5#8, none⟩ }).1 = 0x03#8 := by decide
theorem test_status_out_full : (memRead 0x03#8 { State.reset with port1 := ⟨none, some 0x99#8⟩ }).1 = 0x00#8 := by decide
/-- M11, M20: the last unmapped address. -/
theorem test_unmapped_read : memRead 0xEF#8 State.reset = (0#8, { State.reset with events := [.readUnmapped 0xEF#8] }) := by decide
theorem test_unmapped_write :
    memWrite 0xEF#8 0x55#8 State.reset = { State.reset with events := [.writeUnmapped 0xEF#8] } := by decide
/-- M22, and a write of 0 takes the entry out again. -/
theorem test_ram_canonical : (memWrite 0xFF#8 0#8 (memWrite 0xFF#8 1#8 State.reset)).mem = [] := by decide
/-- HP6: the two calls touch different slots. -/
theorem test_host_slots :
    (match portWrite 0 0x10#8 State.reset with
      | .next t => (match portRead 0 t with
        | .next (b, u) => b == none && u.port0.inbound == some 0x10#8
        | _ => false)
      | _ => false) = true := by decide
theorem test_reset_canonical : Memory.wf State.reset.mem ∧ Rom.wf State.reset.rom := by decide
/-- The word and the spelling of 41_load_store.md R112's example. -/
theorem test_assemble : assemble (.ldx 3#3 0xF#4) = 0x023F#16 := by decide
theorem test_spelling : asmText (.ldx 3#3 0xF#4) = "LDX r3, [r7-1]" := by decide

/-! ### Witnesses: what the obligations suppose can be met -/

/-- DecodeOfEncode. -/
theorem witness_wellFormed : (Instr.addi ⟨15#4, 15#4, 0xF8#8, true, true⟩).wellFormed = true := by decide
/-- DescriptorFields, OperandRead: an immediate word, a gated one, one that writes back nothing, and a register word. -/
theorem witness_forms : (0x0F12#16).getLsbD 9 = true ∧ ((0x0F12#16).extractLsb' 8 3 : BitVec 3) = 7#3 ∧
    ((0x0505#16).extractLsb' 8 4 : Nibble) ∈ [1#4, 3#4, 4#4, 5#4, 6#4, 7#4] ∧ (0x0812#16).getLsbD 9 = false := by decide
/-- RegisterFileReadsAndWrites: a discarding index, and two names of one cell. -/
theorem witness_indices : regIndex 8#4 = 0#3 ∧ regIndex 15#4 = regIndex 7#4 := by decide
/-- ControllerReads: each clause, the ranges at their ends. -/
theorem witness_reads_full : (({ State.reset with port0 := ⟨some 1#8, none⟩ } : State).port .port0).inbound = some 1#8 := by decide
theorem witness_reads_empty : (State.reset.port .port1).inbound = none := by decide
theorem witness_reads_ranges : 0x04 ≤ (0x04#8).toNat ∧ (0xEF#8).toNat ≤ 0xEF ∧ 0xF0 ≤ (0xF0#8).toNat := by decide
/-- RamCells, StStoresIndirect, StxStoresIndexed. -/
theorem witness_ram : Memory.wf [(0xF0, 1#8), (0xFF, 2#8)] ∧ 0xF0 ≤ (0xFF#8).toNat := by decide
/-- StStoresIndirect, region by region at the ends of each (M14 to M22): what the step of `ST r1, [r2]` leaves for x[2] at the address. -/
def storesAt (a : Byte) (p : State → Bool) : Bool := runs 0x0112#16 (small 0x5C#8 a 0#8 []) p
theorem witness_st_unmapped :
    ([0x00#8, 0x02#8, 0x04#8, 0xEF#8].all fun a =>
      storesAt a (fun t => t.events == [.writeUnmapped a] && t.mem == [] && t.port0 == ⟨none, none⟩ && t.port1 == ⟨none, none⟩)) =
      true := by decide
theorem witness_st_mapped :
    ([0xF0#8, 0xFF#8].all fun a => storesAt a (fun t => t.events == [] && t.mem == [(a.toNat, 0x5C#8)])) = true ∧
    storesAt 0x01#8 (fun t => t.events == [] && t.mem == [] && t.port0 == ⟨none, some 0x5C#8⟩) = true ∧
    storesAt 0x03#8 (fun t => t.events == [] && t.mem == [] && t.port1 == ⟨none, some 0x5C#8⟩) = true := by decide
/-- StxStoresIndexed at an even port address and at both ends of the unmapped region: `STX r2, [r7-1]` with x[7] one above. -/
theorem witness_stx_unmapped :
    ([0x00#8, 0x02#8, 0x04#8, 0xEF#8].all fun a =>
      runs 0x032F#16 (small 0#8 0x66#8 (a + 1#8) []) (fun t => t.events == [.writeUnmapped a] && t.mem == [])) = true := by decide
/-- UnmappedWritesOnlyReport: each alternative. -/
theorem witness_unmapped : (0x02#8 = 0x00#8 ∨ 0x02#8 = 0x02#8 ∨ (0x04 ≤ (0x02#8).toNat ∧ (0x02#8).toNat ≤ 0xEF)) ∧
    (0x04 ≤ (0xEF#8).toNat ∧ (0xEF#8).toNat ≤ 0xEF) := by decide
/-- The statements about one opcode, LdLoadsIndirect to NorihIgnoresOldRegister, with bits 15:12 set in some. -/
theorem witness_opcodes : fieldOp 0x0012#16 = 0x0#4 ∧ fieldOp 0x0112#16 = 0x1#4 ∧ fieldOp 0xF23F#16 = 0x2#4 ∧
    fieldOp 0x0323#16 = 0x3#4 ∧ fieldOp 0x84FF#16 = 0x4#4 ∧ fieldOp 0x0505#16 = 0x5#4 ∧ fieldOp 0x061C#16 = 0x6#4 ∧
    fieldOp 0x070E#16 = 0x7#4 ∧ fieldOp 0x08F9#16 = 0x8#4 ∧ fieldOp 0x0912#16 = 0x9#4 ∧ fieldOp 0xFA15#16 = 0xA#4 ∧
    fieldOp 0x0B3F#16 = 0xB#4 ∧ fieldOp 0x0C12#16 = 0xC#4 ∧ fieldOp 0x0D00#16 = 0xD#4 ∧ fieldOp 0x0E7F#16 = 0xE#4 ∧
    fieldOp 0x0F12#16 = 0xF#4 := by decide
/-- PseudoInstructionEffects: MOV between two registers. -/
theorem witness_mov : (1#3 : AsmReg) ≠ 2#3 := by decide
/-- BnnBranchesOnClearSign, transferTarget: both sides of the condition. -/
theorem witness_signs : (0x7F#8).getLsbD 7 = false ∧ (0x80#8).getLsbD 7 = true := by decide

/-- Both latches filled, at pc. -/
def piped (w f : Word) (s : State) : State := { s with dl := some (decode w), fl := some f }

/-- StepExecutesDecodeLatch. -/
theorem witness_latch : (piped 0x0812#16 0#16 State.reset).fatal = false ∧
    (piped 0x0812#16 0#16 State.reset).dl = some (.add ⟨1#4, 2#4, 0#8, true, true⟩) := by decide
/-- EmptyLatchExecutesNothing. -/
theorem witness_empty : State.reset.fatal = false ∧ State.reset.dl = none := by decide
theorem witness_empty_step : ∃ t, step (construct []) = .next t := ⟨_, rfl⟩
/-- EveryStepDecodesAndFetches, OnlyReservedOpcodeIsFatal, StepKeepsInvariant: a step from reset. -/
theorem witness_step : ∃ t, step State.reset = .next t ∧ State.reset.fatal = false ∧ t.fatal = false := ⟨_, rfl, rfl, rfl⟩
theorem witness_invariant : Invariant State.reset :=
  ⟨by decide, by decide, by simp [LatchOk, State.reset], by simp [WarmupOk, State.reset], by simp [FatalOk, State.reset]⟩
/-- ActionKeepsInvariant: a host byte in the reset state. -/
theorem witness_action_invariant : ∃ t, Invariant State.reset ∧ perform (.portWrite 0 1#8) State.reset = .next t :=
  ⟨_, witness_invariant, rfl⟩
/-- FatalCoreNeverSteps, FatalIsFinal. -/
theorem witness_fatal : ∃ t, ({ State.reset with fatal := true } : State).fatal = true ∧
    Action.reset ∉ [Action.step, .portWrite 0 1#8, .portRead 1] ∧
    runActions [.step, .portWrite 0 1#8, .portRead 1] { State.reset with fatal := true } = .next t := ⟨_, rfl, by decide, rfl⟩
/-- FetchedWordExecutesTwoStepsLater. -/
theorem witness_latency : ∃ s1 s2, step State.reset = .next s1 ∧ step s1 = .next s2 ∧ State.reset.fatal = false ∧
    s1.fatal = false ∧ s2.fatal = false := ⟨_, _, rfl, rfl, rfl, rfl, rfl⟩
/-- TwoDelaySlotsAlwaysExecute: a JMP with an ADD behind it. -/
theorem witness_delay : ∃ s1 s2 s3, fieldOp 0x0502#16 = 0x5#4 ∧
    (piped 0x0502#16 0x0811#16 State.reset).fatal = false ∧
    (piped 0x0502#16 0x0811#16 State.reset).dl = some (decode 0x0502#16) ∧
    (piped 0x0502#16 0x0811#16 State.reset).fl = some 0x0811#16 ∧
    step (piped 0x0502#16 0x0811#16 State.reset) = .next s1 ∧ step s1 = .next s2 ∧ step s2 = .next s3 ∧
    s2.fatal = false ∧ s3.fatal = false := ⟨_, _, _, by decide, rfl, rfl, rfl, rfl, rfl, rfl, rfl, rfl⟩
/-- JrInDelaySlotOfJr: the two JR of P5. -/
theorem witness_jr_jr : ∃ s1 s2 s3 s4, fieldOp 0x0703#16 = 0x7#4 ∧ fieldOp 0x0702#16 = 0x7#4 ∧
    (piped 0x0703#16 0x0702#16 State.reset).fatal = false ∧
    (piped 0x0703#16 0x0702#16 State.reset).dl = some (decode 0x0703#16) ∧
    (piped 0x0703#16 0x0702#16 State.reset).fl = some 0x0702#16 ∧
    step (piped 0x0703#16 0x0702#16 State.reset) = .next s1 ∧ step s1 = .next s2 ∧ step s2 = .next s3 ∧ step s3 = .next s4 ∧
    s3.fatal = false ∧ s4.fatal = false := ⟨_, _, _, _, by decide, by decide, rfl, rfl, rfl, rfl, rfl, rfl, rfl, rfl, rfl⟩
/-- StoreSeenByNextLoad: `ST r1, [r2]` then `LD r3, [r2]` (W3). -/
theorem witness_store_load : Memory.wf (piped 0x0112#16 0x0032#16 (small 3#8 0xFF#8 0#8 [])).mem ∧
    (piped 0x0112#16 0x0032#16 (small 3#8 0xFF#8 0#8 [])).fatal = false ∧ fieldOp 0x0112#16 = 0x1#4 ∧ fieldOp 0x0032#16 = 0x0#4 ∧
    regRead (fieldB 0x0032#16) (small 3#8 0xFF#8 0#8 []) = regRead (fieldB 0x0112#16) (small 3#8 0xFF#8 0#8 []) ∧
    0xF0 ≤ (regRead (fieldB 0x0112#16) (small 3#8 0xFF#8 0#8 [])).toNat := by decide
/-- ReachableStatesHaveInvariant: a state after an image, a host byte and a step. -/
theorem witness_reachable : ∃ t, Reachable t :=
  ⟨_, [(0, 0x0010#16)], [.portWrite 0 0x5A#8, .step], by decide, rfl⟩
/-- RomNeverChanges. -/
theorem witness_perform : ∃ t, perform .reset State.reset = .next t := ⟨_, rfl⟩
/-- OnlyTransfersMovePc: `JR -2`. -/
theorem witness_moves_pc : ∃ t, step (piped 0x070E#16 0#16 State.reset) = .next t ∧
    t.pc ≠ (piped 0x070E#16 0#16 State.reset).pc + 1#8 := ⟨_, rfl, by decide⟩
/-- OnlyLoadsAndStoresReachData, OnlyResultsReachRegisters: an ADD and a ST, and an index that is not field A's. -/
theorem witness_exec : (∃ t, exec (decode 0x0812#16) State.reset = .next t) ∧ (∃ t, exec (decode 0x0112#16) State.reset = .next t) ∧
    (decode 0x0812#16).op ∉ [0x0#4, 0x1#4, 0x2#4, 0x3#4] ∧ (decode 0x0812#16).op ∉ [0x1#4, 0x3#4] ∧
    (decode 0x0112#16).op ∈ [0x1#4, 0x3#4, 0x4#4, 0x5#4, 0x6#4, 0x7#4] ∧
    regIndex 2#4 ≠ regIndex (decode 0x0812#16).operands.ra := ⟨⟨_, rfl⟩, ⟨_, rfl⟩, by decide, by decide, by decide, by decide⟩
/-- RunsComplete: a schedule that names both ports. -/
theorem witness_schedule : ∀ act ∈ [Action.portWrite 0 1#8, .step, .portRead 1], (match act with
    | .portWritable p | .portReadable p | .portWrite p _ | .portRead p => p = 0 ∨ p = 1
    | .step | .reset => True) := by simp
/-- ResetHasInvariant, LoadedImageReadsBack: an image in canonical form, and one of 256 words. -/
theorem witness_rom : Rom.wf [(0, 0x0A15#16), (255, 0x0800#16)] ∧ (List.replicate 256 0x0800#16).length = 256 :=
  ⟨by decide, List.length_replicate⟩
/-- PortTransfers: a drain of an empty slot. -/
theorem witness_drain : (State.reset.port .port0).outbound = none := by decide
/-- OtherPortIndicesRefused. -/
theorem witness_other_index : 2 ≤ 2 := by decide
/-- HostByteReachesLoad (E3) and StoredByteReachesHost (E6b). -/
theorem witness_host_load : (piped 0x0010#16 0#16 State.reset).fatal = false ∧
    (piped 0x0010#16 0#16 State.reset).dl = some (decode 0x0010#16) ∧ fieldOp 0x0010#16 = 0x0#4 ∧
    regRead (fieldB 0x0010#16) (piped 0x0010#16 0#16 State.reset) = dataInAddress .port0 := by decide
theorem witness_host_store : (piped 0x0112#16 0#16 (small 5#8 1#8 0#8 [])).fatal = false ∧
    (piped 0x0112#16 0#16 (small 5#8 1#8 0#8 [])).dl = some (decode 0x0112#16) ∧ fieldOp 0x0112#16 = 0x1#4 ∧
    regRead (fieldB 0x0112#16) (piped 0x0112#16 0#16 (small 5#8 1#8 0#8 [])) = dataOutAddress .port0 := by decide

end Sys2Proof.Tests
end

/-! PROOFS of the family 10_state.md: the register file, the loaded ROM, what reset leaves, and the invariant under a step. -/

/-! ### Every decoded word is well-formed -/

namespace Sys2Proof

@[simp] theorem instrOfOp_operands (op : Nibble) (d : Operands) : (instrOfOp op d).operands = d := by
  unfold instrOfOp
  split <;> rfl

/-- The sixteen opcodes. -/
theorem opcode_cases (op : Nibble) :
    op = 0x0#4 ∨ op = 0x1#4 ∨ op = 0x2#4 ∨ op = 0x3#4 ∨ op = 0x4#4 ∨ op = 0x5#4 ∨ op = 0x6#4 ∨ op = 0x7#4 ∨
    op = 0x8#4 ∨ op = 0x9#4 ∨ op = 0xA#4 ∨ op = 0xB#4 ∨ op = 0xC#4 ∨ op = 0xD#4 ∨ op = 0xE#4 ∨ op = 0xF#4 := by
  revert op; decide

/-- The decoder's bit rules (30_encoding.md R74 to R76) agree with the row that the opcode map (R79) has for the opcode. -/
theorem instrOfOp_row (op : Nibble) (d : Operands) :
    (instrOfOp op d).row.immForm = immediateForm op ∧ (instrOfOp op d).row.readFirst = readFirstOf op ∧
    (instrOfOp op d).row.writeBack = writeBackOf op := by
  rcases opcode_cases op with rfl | rfl | rfl | rfl | rfl | rfl | rfl | rfl | rfl | rfl | rfl | rfl | rfl | rfl | rfl | rfl <;>
    exact ⟨rfl, rfl, rfl⟩

/-- A sign-extended field is the sign extension of its own low four bits (00_scope.md R12). -/
theorem signExtend_low_sext8 (v : Nibble) : ((sext8 v).setWidth 4).signExtend 8 = sext8 v := by
  revert v; decide

@[simp] theorem instrOfOp_row_immForm (op : Nibble) (d : Operands) : (instrOfOp op d).row.immForm = immediateForm op :=
  (instrOfOp_row op d).1

@[simp] theorem instrOfOp_row_readFirst (op : Nibble) (d : Operands) : (instrOfOp op d).row.readFirst = readFirstOf op :=
  (instrOfOp_row op d).2.1

@[simp] theorem instrOfOp_row_writeBack (op : Nibble) (d : Operands) : (instrOfOp op d).row.writeBack = writeBackOf op :=
  (instrOfOp_row op d).2.2

/-- Every word decodes to a well-formed descriptor (30_encoding.md R77, R79), in either operand form. -/
theorem wellFormed_decode (w : Word) : (decode w).wellFormed = true := by
  have hread : (decode w).readFirstOk = true := by simp [decode, Instr.readFirstOk, decodeOperands]
  have hwrite : (decode w).writeBackOk = true := by simp [decode, Instr.writeBackOk, decodeOperands]
  have hindex : (decode w).secondIndexOk = true := by
    cases hform : immediateForm (fieldOp w) <;> simp [decode, Instr.secondIndexOk, decodeOperands, hform]
  have himm : (decode w).immediateOk = true := by
    cases hform : immediateForm (fieldOp w) <;>
      simp [decode, Instr.immediateOk, decodeOperands, hform, signExtend_low_sext8]
  simp [Instr.wellFormed, hread, hwrite, hindex, himm]

end Sys2Proof

namespace Sys2Proof.Machine

/-! ### The invariant -/

/-- After phases (2) to (4) the decode latch holds a word decoded in phase (2), or what it held (40_pipeline.md R95). -/
theorem latchOk_advance {m : State} (h : LatchOk m) (u : PcUpdate) : LatchOk (advance u m) := by
  intro i hi
  rw [advance_dl] at hi
  split at hi
  · cases hi
    exact wellFormed_decode _
  · exact h i hi

/-- Fetch always leaves a word in the fetch latch (40_pipeline.md R96). -/
theorem warmupOk_advance (u : PcUpdate) (m : State) : WarmupOk (advance u m) := fun _ => by simp

/-- Phases (2) to (4) establish the invariant on a core that is not fatal. -/
theorem invariant_advance {m : State} (hmem : Memory.wf m.mem) (hrom : Rom.wf m.rom) (hlatch : LatchOk m)
    (hfatal : m.fatal = false) (u : PcUpdate) : Invariant (advance u m) where
  memory := by simpa using hmem
  rom := by simpa using hrom
  latch := latchOk_advance hlatch u
  warmup := warmupOk_advance u m
  fatal := fun h => by simp [hfatal] at h

/-- Raising Fatal with an RSV4 in the decode latch keeps the invariant (60_exceptions.md R151). -/
theorem invariant_raiseFatal {s : State} (h : Invariant s) {i : Instr} (hdl : s.dl = some i) (hi : isReserved i = true) :
    Invariant (raiseFatal s) where
  memory := h.memory
  rom := h.rom
  latch := h.latch
  warmup := h.warmup
  fatal := fun _ => ⟨i, hdl, hi⟩

/-- The invariant holds of every step's answer. -/
theorem invariant_step {s t : State} (hs : Invariant s) (h : step s = .next t) : Invariant t := by
  rcases step_cases h with ⟨-, rfl⟩ | ⟨hf, -, rfl⟩ | ⟨i, -, hdl, hi, rfl⟩ | ⟨i, u, m, hf, -, -, rfl, hm⟩
  · exact hs
  · exact invariant_advance hs.memory hs.rom hs.latch hf _
  · exact invariant_raiseFatal hs hdl hi
  · have hlatch : LatchOk m := fun i hi => hs.latch i (hm.dl ▸ hi)
    exact invariant_advance (hm.mem hs.memory) (hm.rom ▸ hs.rom) hlatch (hm.fatal.trans hf) u

/-- Settles O39, by the four things a step can do: nothing, a warm-up, the fatal condition, or an execution. -/
theorem stepKeepsInvariant : Obligations.StepKeepsInvariant := fun _ _ hs h => invariant_step hs h

/-- Construction from a canonical ROM has the invariant: RAM and latches are empty and FATAL is 0. -/
theorem invariant_construct {r : Rom} (h : Rom.wf r) : Invariant (construct r) where
  memory := reset_memory_wf
  rom := h
  latch := fun _ hi => nomatch hi
  warmup := fun hdl => nomatch hdl
  fatal := fun hf => nomatch hf

/-- Settles O40: the reset state is construction from its own, empty, ROM. -/
theorem resetHasInvariant : Obligations.ResetHasInvariant :=
  ⟨invariant_construct reset_rom_wf, fun _ => invariant_construct⟩

/-! ### The register file -/

/-- Index 0 and index 8 read 0 (10_state.md R22). -/
theorem regRead_zero_index {i : Nibble} (h : regIndex i = 0#3) (s : State) : regRead i s = 0#8 := by
  simp [regRead, h]

/-- A read looks at the index's low 3 bits only (10_state.md R22). -/
theorem regRead_eq_of_regIndex_eq {i j : Nibble} (h : regIndex i = regIndex j) (s : State) : regRead i s = regRead j s := by
  simp only [regRead, h]

/-- A write looks at the index's low 3 bits only (10_state.md R23). -/
theorem regWrite_eq_of_regIndex_eq {i j : Nibble} (h : regIndex i = regIndex j) (v : Byte) (s : State) :
    regWrite i v s = regWrite j v s := by
  simp only [regWrite, h]

/-- A written real cell reads the value. -/
theorem regRead_regWrite_self {i : Nibble} (hi : regIndex i ≠ 0#3) (v : Byte) (s : State) :
    regRead i (regWrite i v s) = v := by
  rcases index_cases (regIndex i) with h | h | h | h | h | h | h | h
  · exact absurd h hi
  all_goals simp [regRead, regWrite, h]

/-- A write leaves the cells of other indices as they were, whichever of the eight each index names. -/
theorem regRead_regWrite_of_ne {i j : Nibble} (hij : regIndex j ≠ regIndex i) (v : Byte) (s : State) :
    regRead j (regWrite i v s) = regRead j s := by
  rcases index_cases (regIndex i) with hi | hi | hi | hi | hi | hi | hi | hi
  · rw [regWrite_discarded i v s hi]
  all_goals
    rw [hi] at hij
    rcases index_cases (regIndex j) with hj | hj | hj | hj | hj | hj | hj | hj <;>
      simp_all [regRead, regWrite]

/-- What reading gives after writing (10_state.md R22, R23). -/
theorem onlyReg_regWrite (i : Nibble) (v : Byte) (s : State) : OnlyReg i v s (regWrite i v s) := by
  intro j
  by_cases hi : regIndex i = 0#3
  · simp [regWrite_discarded i v s hi, hi]
  by_cases hj : regIndex j = regIndex i
  · simp [regRead_eq_of_regIndex_eq hj, regRead_regWrite_self hi, hi, hj]
  · simp [regRead_regWrite_of_ne hj, hj]

/-- Settles O6, clause by clause from the rules of the register file. -/
theorem registerFileReadsAndWrites : Obligations.RegisterFileReadsAndWrites := by
  refine ⟨fun i s hi => ?zero, fun i v s => ?write, fun i j s hij => ?names, fun s => ?cells⟩
  case zero => exact ⟨regRead_zero_index hi s, fun v => regWrite_discarded i v s hi⟩
  case write => exact ⟨onlyReg_regWrite i v s, regWrite_eq i v s⟩
  case names => exact ⟨regRead_eq_of_regIndex_eq hij s, fun v => regWrite_eq_of_regIndex_eq hij v s⟩
  case cells => exact ⟨rfl, rfl, rfl, rfl, rfl, rfl, rfl⟩

/-! ### What reset leaves -/

/-- Every register reads 0 after construction (10_state.md R25). -/
@[simp] theorem regRead_construct (j : Nibble) (r : Rom) : regRead j (construct r) = 0#8 := by
  rcases index_cases (regIndex j) with h | h | h | h | h | h | h | h <;> simp [regRead, h, State.reset]

/-- Settles O55. -/
theorem registersZeroAfterReset : Obligations.RegistersZeroAfterReset := fun r j => regRead_construct j r

/-- Every RAM cell reads 0 after construction (10_state.md R30): no cell is listed. -/
@[simp] theorem ramRead_construct (a : Byte) (r : Rom) : ramRead a (construct r) = 0#8 := rfl

/-- Every port slot is empty after construction (10_state.md R39). -/
@[simp] theorem port_construct (p : PortId) (r : Rom) : (construct r).port p = ⟨none, none⟩ := by
  cases p <;> rfl

/-- Settles O56: construction field by field, and a later reset, which is construction from the same ROM. -/
theorem resetState : Obligations.ResetState :=
  ⟨fun r => ⟨rfl, rfl, rfl, fun a => ramRead_construct a r, fun p => port_construct p r, rfl, rfl, rfl⟩, fun _ => rfl⟩

/-! ### Loading an image -/

/-- A list in canonical form from `lo` on is in canonical form from any lower address on. -/
theorem cellsWf_of_le {α : Type} {dflt : α} {lo lo' hi : Nat} {m : List (Nat × α)} (hm : cellsWf dflt lo hi m)
    (h : lo' ≤ lo) : cellsWf dflt lo' hi m := by
  obtain ⟨hrise, hrange⟩ := hm
  exact ⟨hrise, fun c hc => ⟨h.trans (hrange c hc).1, (hrange c hc).2⟩⟩

/-- An entry in front of a list in canonical form from the next address on. -/
theorem cellsWf_cons {α : Type} {dflt v : α} {a hi : Nat} {m : List (Nat × α)} (hm : cellsWf dflt (a + 1) hi m)
    (ha : a < hi) (hv : v ≠ dflt) : cellsWf dflt a hi ((a, v) :: m) := by
  obtain ⟨-, hrange⟩ := cellsWf_of_le hm a.le_succ
  refine ⟨List.pairwise_cons.mpr ⟨fun c hc => (hm.2 c hc).1, hm.1⟩, fun c hc => ?_⟩
  rcases List.mem_cons.mp hc with rfl | hc
  · exact ⟨le_rfl, ha, hv⟩
  · exact hrange c hc

/-- Words placed from `a` on are listed in canonical form, at `a` or above. -/
theorem placeWords_wf (a : Nat) (ws : List Word) : cellsWf Config.romDefault a Config.romWords (placeWords a ws) := by
  induction ws generalizing a with
  | nil => exact ⟨.nil, nofun⟩
  | cons w ws ih =>
    unfold placeWords
    split
    next ha =>
      split
      next => exact cellsWf_of_le (ih (a + 1)) a.le_succ
      next hw => exact cellsWf_cons (ih (a + 1)) ha hw
    next => exact ⟨.nil, nofun⟩

/-- No word stands below the address from which words are placed. -/
theorem cellRead_placeWords_below {a b : Nat} (h : b < a) (ws : List Word) :
    cellRead Config.romDefault (placeWords a ws) b = Config.romDefault :=
  cellRead_below fun c hc => h.trans_le ((placeWords_wf a ws).2 c hc).1

/-- The first word placed at `a` is read there. -/
theorem cellRead_placeWords_head {a : Nat} (h : a < Config.romWords) (w : Word) (ws : List Word) :
    cellRead Config.romDefault (placeWords a (w :: ws)) a = w := by
  by_cases hw : w = Config.romDefault
  · simp [placeWords, h, hw, cellRead_placeWords_below a.lt_succ_self]
  · simp [placeWords, h, hw, cellRead]

/-- Above `a` the words after the first are read. -/
theorem cellRead_placeWords_tail {a b : Nat} (h : a < Config.romWords) (hb : a < b) (w : Word) (ws : List Word) :
    cellRead Config.romDefault (placeWords a (w :: ws)) b = cellRead Config.romDefault (placeWords (a + 1) ws) b := by
  by_cases hw : w = Config.romDefault
  · simp [placeWords, h, hw]
  · simp [placeWords, h, hw, cellRead, hb.ne]

/-- Word `k` of the list is read `k` addresses above the first, inside the ROM (10_state.md R31). -/
theorem cellRead_placeWords {ws : List Word} {k : Nat} (hk : k < ws.length) {a : Nat} (ha : a + k < Config.romWords) :
    cellRead Config.romDefault (placeWords a ws) (a + k) = ws[k] := by
  induction ws generalizing a k with
  | nil => cases hk
  | cons w ws ih =>
    cases k with
    | zero => exact cellRead_placeWords_head ha w ws
    | succ k =>
      rw [cellRead_placeWords_tail (by omega) (by omega), show a + (k + 1) = a + 1 + k by omega]
      exact ih (Nat.lt_of_succ_lt_succ hk) (by omega)

/-- A loaded image is in canonical form, whatever its length. -/
theorem loadImage_wf (ws : List Word) : Rom.wf (loadImage ws) := placeWords_wf 0 ws

/-- `ROM[a]` of a loaded image is its word `a`. -/
theorem romWord_loadImage {ws : List Word} {a : Byte} (h : a.toNat < ws.length) :
    romWord a (construct (loadImage ws)) = ws[a.toNat] := by
  have hread := cellRead_placeWords h (a := 0) (by simpa using a.isLt)
  rwa [Nat.zero_add] at hread

/-- Settles O57, by induction on the image's words through `placeWords_wf` and `cellRead_placeWords`. -/
theorem loadedImageReadsBack : Obligations.LoadedImageReadsBack := by
  refine fun ws => ⟨loadImage_wf ws, fun hlen a => ?_⟩
  have ha : a.toNat < ws.length := hlen ▸ a.isLt
  rw [romWord_loadImage ha, List.getElem?_eq_getElem ha]

end Sys2Proof.Machine

/-! PROOFS of the family 20_memory.md: the memory and port controller, the host's port operations, which instructions reach data,
the event output, and what every action keeps. -/

namespace Sys2Proof.Machine

/-! ### One port of the state -/

/-- Replacing a port leaves everything else as it was. -/
theorem onlyPort_setPort (p : PortId) (q : Port) (s : State) : OnlyPort p s (s.setPort p q) where
  otherPort := fun p' hne => by simp [port_setPort, hne]
  regs := by simp
  pc := by simp
  fl := by simp
  dl := by simp
  mem := by simp
  fatal := by simp
  rom := by simp
  events := by simp

/-- Replacing a port by itself changes nothing. -/
@[simp] theorem setPort_port_self (p : PortId) (s : State) : s.setPort p (s.port p) = s := by
  cases p <;> rfl

/-! ### The invariant and the ROM under every action -/

/-- The invariant speaks of no port. -/
theorem invariant_setPort {s : State} (h : Invariant s) (p : PortId) (q : Port) : Invariant (s.setPort p q) where
  memory := by simpa using h.memory
  rom := by simpa using h.rom
  latch := by simpa [LatchOk] using h.latch
  warmup := by simpa [WarmupOk] using h.warmup
  fatal := by simpa [FatalOk] using h.fatal

/-- Settles O60, by the four things an action can do: step, reset, leave the state, or set one port. -/
theorem actionKeepsInvariant : Obligations.ActionKeepsInvariant := by
  intro act s t hs h
  rcases perform_cases h with ⟨-, hstep⟩ | ⟨-, rfl⟩ | rfl | ⟨p, q, rfl⟩
  · exact invariant_step hs hstep
  · exact invariant_construct hs.rom
  · exact hs
  · exact invariant_setPort hs p q

/-- A step never writes the ROM (20_memory.md R67). -/
theorem step_rom {s t : State} (h : step s = .next t) : t.rom = s.rom := by
  rcases step_cases h with ⟨-, rfl⟩ | ⟨-, -, rfl⟩ | ⟨i, -, -, -, rfl⟩ | ⟨i, u, m, -, -, -, rfl, hm⟩
  · rfl
  · simp
  · rfl
  · simpa using hm.rom

/-- Settles O42: a step keeps the ROM, a reset constructs from it, and a host operation sets at most a port. -/
theorem romNeverChanges : Obligations.RomNeverChanges := by
  intro act s t h
  rcases perform_cases h with ⟨-, hstep⟩ | ⟨-, rfl⟩ | rfl | ⟨p, q, rfl⟩
  · exact step_rom hstep
  · rfl
  · rfl
  · simp

/-! ### The controller, address by address -/

/-- A read of the address 2p takes port p's inbound byte (20_memory.md R44). -/
theorem memRead_dataInAddress (p : PortId) (s : State) : memRead (dataInAddress p) s = takeInbound p s := by
  cases p <;> rfl

/-- A read of the address 2p + 1 answers port p's status (20_memory.md R45). -/
theorem memRead_dataOutAddress (p : PortId) (s : State) :
    memRead (dataOutAddress p) s = (statusByte (s.port p), s) := by
  cases p <;> rfl

/-- An address above the ports and below the RAM reads as unmapped (20_memory.md R46). -/
theorem memRead_unmapped {a : Byte} (hlo : 0x04 ≤ a.toNat) (hhi : a.toNat ≤ 0xEF) (s : State) :
    memRead a s = (0#8, emit (.readUnmapped a) s) := by
  rcases memRead_cases a s with ⟨ha, -, -⟩ | ⟨ha, -, -⟩ | ⟨-, -, h⟩ | ⟨ha, -⟩
  · bv_omega
  · bv_omega
  · exact h
  · bv_omega

/-- An address from 0xF0 on reads its RAM cell (20_memory.md R47). -/
theorem memRead_ram {a : Byte} (ha : 0xF0 ≤ a.toNat) (s : State) : memRead a s = (ramRead a s, s) := by
  rcases memRead_cases a s with ⟨hlt, -, -⟩ | ⟨hlt, -, -⟩ | ⟨-, hlt, -⟩ | ⟨-, h⟩
  · bv_omega
  · bv_omega
  · bv_omega
  · exact h

/-- A write at the address 2p + 1 sets port p's outbound byte (20_memory.md R51). -/
theorem memWrite_dataOutAddress (p : PortId) (v : Byte) (s : State) :
    memWrite (dataOutAddress p) v s = putOutbound p v s := by
  cases p <;> rfl

/-- A write at the address 2p is only reported (20_memory.md R49). -/
theorem memWrite_dataInAddress (p : PortId) (v : Byte) (s : State) :
    memWrite (dataInAddress p) v s = emit (.writeUnmapped (dataInAddress p)) s := by
  cases p <;> rfl

/-- A write above the ports and below the RAM is only reported (20_memory.md R50). -/
theorem memWrite_unmapped {a : Byte} (hlo : 0x04 ≤ a.toNat) (hhi : a.toNat ≤ 0xEF) (v : Byte) (s : State) :
    memWrite a v s = emit (.writeUnmapped a) s := by
  rcases memWrite_cases a v s with ⟨-, -, h⟩ | ⟨ha, -, -⟩ | ⟨-, -, h⟩ | ⟨ha, -⟩
  · exact h
  · bv_omega
  · exact h
  · bv_omega

/-- A write at an address from 0xF0 on sets its RAM cell (20_memory.md R47). -/
theorem memWrite_ram {a : Byte} (ha : 0xF0 ≤ a.toNat) (v : Byte) (s : State) : memWrite a v s = ramWrite a v s := by
  rcases memWrite_cases a v s with ⟨hlt, -, -⟩ | ⟨hlt, -, -⟩ | ⟨-, hlt, -⟩ | ⟨-, h⟩
  · bv_omega
  · bv_omega
  · bv_omega
  · exact h

/-- Taking a byte that is there (20_memory.md R44). -/
theorem takeInbound_full {p : PortId} {s : State} {b : Byte} (h : (s.port p).inbound = some b) :
    takeInbound p s = (b, s.setPort p { s.port p with inbound := none }) := by
  simp [takeInbound, h]

/-- Taking from an empty slot (20_memory.md R44). -/
theorem takeInbound_empty {p : PortId} {s : State} (h : (s.port p).inbound = none) :
    takeInbound p s = (0#8, emit (.readEmptyPort p) s) := by
  simp [takeInbound, h]

/-- The status byte by the two slots' emptiness (10_state.md R33). -/
theorem statusByte_eq (q : Port) :
    statusByte q = (if q.inbound = none then 0#8 else 2#8) ||| (if q.outbound = none then 1#8 else 0#8) := by
  obtain ⟨_ | _, _ | _⟩ := q <;> rfl

/-- The status byte bit by bit: IN_FULL, OUT_EMPTY, and zeros (10_state.md R33). -/
theorem statusByte_getLsbD (q : Port) {k : Nat} (hk : k < 8) :
    (statusByte q).getLsbD k = ((k == 1 && q.inbound.isSome) || (k == 0 && q.outbound.isNone)) := by
  unfold statusByte
  generalize q.inbound.isSome = inFull, q.outbound.isNone = outEmpty
  revert k inFull outEmpty
  decide

/-- Settles O8, region by region. -/
theorem controllerReads : Obligations.ControllerReads := by
  intro s
  refine ⟨fun p b h => ?full, fun p h => ?empty, fun p => ?status, fun a hlo hhi => ?unmapped, fun a ha => ?ram⟩
  case full =>
    refine ⟨_, (memRead_dataInAddress p s).trans (takeInbound_full h), onlyPort_setPort _ _ _, ?_⟩
    exact port_setPort_self _ _ _
  case empty => exact (memRead_dataInAddress p s).trans (takeInbound_empty h)
  case status => rw [memRead_dataOutAddress, statusByte_eq]
  case unmapped => exact memRead_unmapped hlo hhi s
  case ram => exact memRead_ram ha s

/-- Settles O9, from the status byte's bits. -/
theorem statusByteBits : Obligations.StatusByteBits := by
  intro p s
  refine ⟨_, memRead_dataOutAddress p s, ?inFull, ?outEmpty, fun k hlo hk => ?zeros⟩
  case inFull =>
    rw [statusByte_getLsbD _ (by decide)]
    simp [Option.isSome_iff_exists]
  case outEmpty =>
    rw [statusByte_getLsbD _ (by decide)]
    simp
  case zeros =>
    rw [statusByte_getLsbD _ hk]
    simp [show k ≠ 1 by omega, show k ≠ 0 by omega]

/-- Settles O10, from the rules of the RAM's list of cells. -/
theorem ramCells : Obligations.RamCells := by
  refine fun s a hwf ha => ⟨memRead_ram ha s, fun v => ?_⟩
  rw [memWrite_ram ha]
  exact ⟨_, rfl, ramWrite_wf hwf v ha, fun b => ramRead_ramWrite hwf a b v⟩

/-- Settles O11: the write replaces port p, with its inbound slot kept. -/
theorem dataOutWriteOverwrites : Obligations.DataOutWriteOverwrites := by
  intro p v s
  rw [memWrite_dataOutAddress]
  exact ⟨onlyPort_setPort _ _ _, port_setPort_self _ _ _⟩

/-- Settles O12: the two even port addresses, and the unmapped region. -/
theorem unmappedWritesOnlyReport : Obligations.UnmappedWritesOnlyReport := by
  rintro a v s (rfl | rfl | ⟨hlo, hhi⟩)
  · exact memWrite_dataInAddress .port0 v s
  · exact memWrite_dataInAddress .port1 v s
  · exact memWrite_unmapped hlo hhi v s

/-! ### The host's port operations -/

/-- A port's own index names it (20_memory.md R60). -/
@[simp] theorem hostPort_hostIndex (p : PortId) : hostPort (hostIndex p) = some p := by
  cases p <;> rfl

/-- No index from 2 on names a port (20_memory.md R60). -/
theorem hostPort_of_two_le {p : Nat} (h : 2 ≤ p) : hostPort p = none := by
  obtain ⟨n, rfl⟩ := Nat.exists_eq_add_of_le' h
  rfl

/-- `port_writable` of a port (20_memory.md R56). -/
theorem portWritable_hostIndex (p : PortId) (s : State) :
    portWritable (hostIndex p) s = .next (s.port p).inbound.isNone := by
  simp [portWritable]

/-- `port_readable` of a port (20_memory.md R57). -/
theorem portReadable_hostIndex (p : PortId) (s : State) :
    portReadable (hostIndex p) s = .next (s.port p).outbound.isSome := by
  simp [portReadable]

/-- `port_write` to a port (20_memory.md R58). -/
theorem portWrite_hostIndex (p : PortId) (b : Byte) (s : State) :
    portWrite (hostIndex p) b s = .next (s.setPort p { s.port p with inbound := some b }) := by
  simp [portWrite]

/-- `port_read` from a port (20_memory.md R59). -/
theorem portRead_hostIndex (p : PortId) (s : State) :
    portRead (hostIndex p) s = .next ((s.port p).outbound, s.setPort p { s.port p with outbound := none }) := by
  simp [portRead]

/-- Draining an empty outbound slot changes nothing (20_memory.md R59). -/
theorem setPort_outbound_none {p : PortId} {s : State} (h : (s.port p).outbound = none) :
    s.setPort p { s.port p with outbound := none } = s := by
  rw [← h]
  exact setPort_port_self p s

/-- Settles O50. -/
theorem portPredicates : Obligations.PortPredicates := fun p s =>
  ⟨_, _, portWritable_hostIndex p s, portReadable_hostIndex p s, Option.isNone_iff_eq_none, Option.isSome_iff_exists⟩

/-- Settles O51: both transfers replace the one port, and a drain of an empty slot replaces it by itself. -/
theorem portTransfers : Obligations.PortTransfers := by
  refine fun p s => ⟨fun b => ⟨_, portWrite_hostIndex p b s, ?_, ?_⟩, _, portRead_hostIndex p s, ?_, ?_, ?_⟩
  · exact onlyPort_setPort _ _ _
  · exact port_setPort_self _ _ _
  · exact onlyPort_setPort _ _ _
  · exact port_setPort_self _ _ _
  · exact setPort_outbound_none

/-- Settles O52: no port has the index, so each operation answers the refusal. -/
theorem otherPortIndicesRefused : Obligations.OtherPortIndicesRefused := by
  intro p b s h
  simp [portWritable, portReadable, portWrite, portRead, hostPort_of_two_le h]

/-! ### Which instructions reach the data address space -/

theorem noDataAccess_advance (u : PcUpdate) (s : State) : NoDataAccess s (advance u s) where
  ram := fun a => ramRead_advance a u s
  ports := fun p => port_advance p u s
  events := advance_events u s

/-- Writing back reaches registers only (40_pipeline.md R98). -/
theorem noDataAccess_writeBack (d : Operands) (v : Byte) (s : State) : NoDataAccess s (writeBack d v s) where
  ram := fun a => ramRead_congr a (writeBack_mem d v s)
  ports := fun p => port_congr p (writeBack_port0 d v s) (writeBack_port1 d v s)
  events := writeBack_events d v s

theorem noDataAccess_raiseFatal (s : State) : NoDataAccess s (raiseFatal s) where
  ram := fun a => ramRead_congr a (raiseFatal_mem s)
  ports := fun p => port_congr p (raiseFatal_port0 s) (raiseFatal_port1 s)
  events := raiseFatal_events s

theorem NoDataAccess.trans {s m t : State} (h : NoDataAccess s m) (h' : NoDataAccess m t) : NoDataAccess s t where
  ram := fun a => (h'.ram a).trans (h.ram a)
  ports := fun p => (h'.ports p).trans (h.ports p)
  events := h'.events.trans h.events

/-- A load leaves every RAM byte as it was, the side effect on a port notwithstanding (20_memory.md R43). -/
theorem sameRam_loadFrom {a : Byte} {d : Operands} {s t : State} (h : loadFrom a d s = .next t) : SameRam s t := by
  cases h
  exact fun b => ramRead_congr b (by simp)

/-- No ALU instruction makes a data access (43_alu.md R131). -/
theorem noDataAccess_finishAlu {d : Operands} {v : Byte} {s t : State} (h : finishAlu d v s = .next t) :
    NoDataAccess s t := by
  cases h
  exact (noDataAccess_writeBack d v s).trans (noDataAccess_advance _ _)

/-- The data access of every instruction (20_memory.md R41): LD and LDX load, ST and STX store, the others make none. -/
theorem exec_access_cases {i : Instr} {s t : State} (h : exec i s = .next t) :
    (i.op ∈ [0x0#4, 0x2#4] ∧ ∃ a d, loadFrom a d s = .next t) ∨
    (i.op ∈ [0x1#4, 0x3#4] ∧ ∃ a d, storeTo a d s = .next t) ∨ NoDataAccess s t := by
  cases i with
  | ld d => exact .inl ⟨.head _, _, _, h⟩
  | ldx d => exact .inl ⟨.tail _ (.head _), _, _, h⟩
  | st d => exact .inr (.inl ⟨.head _, _, _, h⟩)
  | stx d => exact .inr (.inl ⟨.tail _ (.head _), _, _, h⟩)
  | rsv4 d => cases h; exact .inr (.inr (noDataAccess_raiseFatal s))
  | jmp d => cases h; exact .inr (.inr (noDataAccess_advance _ s))
  | bnn d => cases h; exact .inr (.inr (noDataAccess_advance _ s))
  | jr d => cases h; exact .inr (.inr (noDataAccess_advance _ s))
  | add d | nor d | addi d | nori d | addh d | norh d | addih d | norih d =>
    exact .inr (.inr (noDataAccess_finishAlu h))

/-- Settles O44, by the data access the instruction makes: a load, a store, or none. -/
theorem onlyLoadsAndStoresReachData : Obligations.OnlyLoadsAndStoresReachData := by
  intro i s t h
  have loads_subset : [0x0#4, 0x2#4] ⊆ [0x0#4, 0x1#4, 0x2#4, 0x3#4] := by decide
  have stores_subset : [0x1#4, 0x3#4] ⊆ [0x0#4, 0x1#4, 0x2#4, 0x3#4] := by decide
  rcases exec_access_cases h with ⟨hop, a, d, hload⟩ | ⟨hop, -⟩ | hnone
  · exact ⟨fun hno => absurd (loads_subset hop) hno, fun _ => sameRam_loadFrom hload⟩
  · exact ⟨fun hno => absurd (stores_subset hop) hno, fun hno => absurd hop hno⟩
  · exact ⟨fun _ => hnone, fun _ => hnone.ram⟩

/-! ### The event output (20_memory.md R52) -/

/-- What a transition reads and writes beside the event list is the same under every event list. -/
@[simp] theorem firstOperand_withEvents (d : Operands) (l : List Event) (s : State) :
    firstOperand d (withEvents l s) = firstOperand d s := rfl

@[simp] theorem port_withEvents (p : PortId) (l : List Event) (s : State) : (withEvents l s).port p = s.port p := by
  cases p <;> rfl

@[simp] theorem setPort_withEvents (p : PortId) (q : Port) (l : List Event) (s : State) :
    (withEvents l s).setPort p q = withEvents l (s.setPort p q) := by
  cases p <;> rfl

@[simp] theorem regWrite_withEvents (i : Nibble) (v : Byte) (l : List Event) (s : State) :
    regWrite i v (withEvents l s) = withEvents l (regWrite i v s) := by
  unfold regWrite
  split <;> rfl

@[simp] theorem writeBack_withEvents (d : Operands) (v : Byte) (l : List Event) (s : State) :
    writeBack d v (withEvents l s) = withEvents l (writeBack d v s) := by
  cases hd : d.writeBack <;> simp [writeBack_eq, hd]

@[simp] theorem decodeStage_withEvents (l : List Event) (s : State) :
    decodeStage (withEvents l s) = withEvents l (decodeStage s) := by
  cases h : s.fl <;> simp [decodeStage, withEvents, h]

@[simp] theorem advance_withEvents (u : PcUpdate) (l : List Event) (s : State) :
    advance u (withEvents l s) = withEvents l (advance u s) := by
  unfold advance
  rw [decodeStage_withEvents]
  cases u <;> rfl

@[simp] theorem emit_withEvents (e : Event) (l : List Event) (s : State) :
    emit e (withEvents l s) = withEvents (l ++ [e]) (emit e s) := rfl

@[simp] theorem ramRead_withEvents (a : Byte) (l : List Event) (s : State) :
    ramRead a (withEvents l s) = ramRead a s := rfl

@[simp] theorem ramWrite_withEvents (a v : Byte) (l : List Event) (s : State) :
    ramWrite a v (withEvents l s) = withEvents l (ramWrite a v s) := rfl

@[simp] theorem raiseFatal_withEvents (l : List Event) (s : State) :
    raiseFatal (withEvents l s) = withEvents l (raiseFatal s) := rfl

/-- From `s` the transition `f` completes and emits at most one event, the same whatever was emitted before, and nothing else
of its answer depends on what was emitted before. -/
def EventBlind (f : State → Host.Outcome State Fault Refusal) (s : State) : Prop :=
  ∃ t d, f s = .next t ∧ t.events = s.events ++ d ∧ d.length ≤ 1 ∧
    ∀ l, f (withEvents l s) = .next (withEvents (l ++ d) t)

/-- A transition that emits nothing and is the same under every event list. -/
theorem eventBlind_of_silent {f : State → Host.Outcome State Fault Refusal} {s t : State} (h : f s = .next t)
    (hev : t.events = s.events) (hl : ∀ l, f (withEvents l s) = .next (withEvents l t)) : EventBlind f s :=
  ⟨t, [], h, by simpa using hev, by simp, by simpa using hl⟩

/-- Every address is a port's data-in or data-out, unmapped, or a RAM cell's (20_memory.md R42). -/
theorem address_cases (a : Byte) :
    (∃ p, a = dataInAddress p) ∨ (∃ p, a = dataOutAddress p) ∨
    (0x04 ≤ a.toNat ∧ a.toNat ≤ 0xEF) ∨ 0xF0 ≤ a.toNat := by
  by_cases h0 : a = 0x00#8
  · exact .inl ⟨.port0, h0⟩
  by_cases h1 : a = 0x01#8
  · exact .inr (.inl ⟨.port0, h1⟩)
  by_cases h2 : a = 0x02#8
  · exact .inl ⟨.port1, h2⟩
  by_cases h3 : a = 0x03#8
  · exact .inr (.inl ⟨.port1, h3⟩)
  · exact .inr (.inr (by bv_omega))

/-- A controller read answers the same byte and emits the same event, if any, whatever was emitted before. -/
theorem memRead_withEvents (a : Byte) (s : State) :
    ∃ d, (memRead a s).2.events = s.events ++ d ∧ d.length ≤ 1 ∧
      ∀ l, memRead a (withEvents l s) = ((memRead a s).1, withEvents (l ++ d) (memRead a s).2) := by
  rcases address_cases a with ⟨p, rfl⟩ | ⟨p, rfl⟩ | ⟨hlo, hhi⟩ | ha
  · simp only [memRead_dataInAddress]
    cases hin : (s.port p).inbound with
    | some b => exact ⟨[], by simp [takeInbound, hin]⟩
    | none => exact ⟨[.readEmptyPort p], by simp [takeInbound, hin]⟩
  · exact ⟨[], by simp [memRead_dataOutAddress]⟩
  · exact ⟨[.readUnmapped a], by simp [memRead_unmapped hlo hhi]⟩
  · exact ⟨[], by simp [memRead_ram ha]⟩

/-- A controller write emits the same event, if any, whatever was emitted before. -/
theorem memWrite_withEvents (a v : Byte) (s : State) :
    ∃ d, (memWrite a v s).events = s.events ++ d ∧ d.length ≤ 1 ∧
      ∀ l, memWrite a v (withEvents l s) = withEvents (l ++ d) (memWrite a v s) := by
  rcases address_cases a with ⟨p, rfl⟩ | ⟨p, rfl⟩ | ⟨hlo, hhi⟩ | ha
  · exact ⟨[.writeUnmapped (dataInAddress p)], by simp [memWrite_dataInAddress]⟩
  · exact ⟨[], by simp [memWrite_dataOutAddress, putOutbound]⟩
  · exact ⟨[.writeUnmapped a], by simp [memWrite_unmapped hlo hhi]⟩
  · exact ⟨[], by simp [memWrite_ram ha]⟩

section
variable {s : State}

/-- A load whose address the event list does not enter. -/
theorem eventBlind_loadFrom {a : State → Byte} (ha : ∀ l, a (withEvents l s) = a s) (d : Operands) :
    EventBlind (fun s => loadFrom (a s) d s) s := by
  obtain ⟨es, hev, hlen, hl⟩ := memRead_withEvents (a s) s
  exact ⟨_, es, rfl, by simpa using hev, hlen, fun l => by simp [loadFrom, ha, hl]⟩

/-- A store whose address the event list does not enter. -/
theorem eventBlind_storeTo {a : State → Byte} (ha : ∀ l, a (withEvents l s) = a s) (d : Operands) :
    EventBlind (fun s => storeTo (a s) d s) s := by
  obtain ⟨es, hev, hlen, hl⟩ := memWrite_withEvents (a s) (firstOperand d s) s
  exact ⟨_, es, rfl, by simpa using hev, hlen, fun l => by simp [storeTo, ha, hl]⟩

/-- A result that the event list does not enter. -/
theorem eventBlind_finishAlu {r : State → Byte} (hr : ∀ l, r (withEvents l s) = r s) (d : Operands) :
    EventBlind (fun s => finishAlu d (r s) s) s :=
  eventBlind_of_silent rfl (by simp) fun l => by simp [finishAlu, hr]

/-- A pc update that the event list does not enter. -/
theorem eventBlind_advance {u : State → PcUpdate} (hu : ∀ l, u (withEvents l s) = u s) :
    EventBlind (fun s => .next (advance (u s) s)) s :=
  eventBlind_of_silent rfl (by simp) fun l => by simp [hu]

end

/-- The events emitted before an instruction do not enter it: not its address, its result or its pc update. -/
theorem eventBlind_exec (i : Instr) (s : State) : EventBlind (exec i) s := by
  cases i with
  | ld d => exact eventBlind_loadFrom (fun _ => rfl) d
  | ldx d => exact eventBlind_loadFrom (fun _ => rfl) d
  | st d => exact eventBlind_storeTo (fun _ => rfl) d
  | stx d => exact eventBlind_storeTo (fun _ => rfl) d
  | rsv4 d => exact eventBlind_of_silent rfl rfl fun _ => rfl
  | jmp d => exact eventBlind_advance fun _ => rfl
  | bnn d => exact eventBlind_advance fun _ => rfl
  | jr d => exact eventBlind_advance fun _ => rfl
  | add d | nor d | addi d | nori d | addh d | norh d | addih d | norih d =>
    exact eventBlind_finishAlu (fun _ => rfl) d

/-- Two transitions that agree on a state under every event list are blind to events together. -/
theorem EventBlind.congr {f g : State → Host.Outcome State Fault Refusal} {s : State} (h : EventBlind g s)
    (heq : ∀ l, f (withEvents l s) = g (withEvents l s)) : EventBlind f s := by
  obtain ⟨t, d, hg, hev, hlen, hl⟩ := h
  exact ⟨t, d, (heq s.events).trans hg, hev, hlen, fun l => (heq l).trans (hl l)⟩

/-- A fatal core stays as it is (40_pipeline.md R90). -/
theorem step_of_fatal {s : State} (h : s.fatal = true) : step s = .next s := by
  simp [step, sequencer, h]

/-- With an empty decode latch a step only fetches and decodes (40_pipeline.md R92). -/
theorem step_of_emptyLatch {s : State} (hf : s.fatal = false) (hd : s.dl = none) :
    step s = .next (advance (.add 1#8) s) := by
  simp [step, sequencer, hf, hd]

/-- Any other step executes the decode latch's descriptor (40_pipeline.md R94). -/
theorem step_of_latch {s : State} {i : Instr} (hf : s.fatal = false) (hd : s.dl = some i) : step s = exec i s := by
  simp [step, sequencer, hf, hd]

/-- A step's choice looks at FATAL and the decode latch, not at the event list (40_pipeline.md R99). -/
theorem eventBlind_step (s : State) : EventBlind step s := by
  cases hf : s.fatal with
  | true => exact eventBlind_of_silent (step_of_fatal hf) rfl fun _ => step_of_fatal hf
  | false =>
    cases hd : s.dl with
    | none => exact (eventBlind_advance (u := fun _ => .add 1#8) fun _ => rfl).congr fun _ => step_of_emptyLatch hf hd
    | some i => exact (eventBlind_exec i s).congr fun _ => step_of_latch hf hd

/-- Settles O47, by what a step executes: nothing, a warm-up, or an instruction. -/
theorem eventsHaveNoEffect : Obligations.EventsHaveNoEffect := by
  intro s l
  obtain ⟨t, d, hstep, hev, hlen, hl⟩ := eventBlind_step s
  exact ⟨t, d, hstep, hev, hlen, hl l⟩

end Sys2Proof.Machine

/-! PROOFS of the family 30_encoding.md: the decoder and the encoder undo each other, the descriptor of every word, the
pseudo-instructions, and which instructions write a register or raise Fatal. -/

/-! ### The decoder and the encoder -/

namespace Sys2Proof

/-- The opcode names the constructor (30_encoding.md R79). -/
@[simp] theorem instrOfOp_op (op : Nibble) (d : Operands) : (instrOfOp op d).op = op := by
  rcases opcode_cases op with rfl | rfl | rfl | rfl | rfl | rfl | rfl | rfl | rfl | rfl | rfl | rfl | rfl | rfl | rfl | rfl <;>
    rfl

/-- An instruction is its opcode's constructor on its operands. -/
@[simp] theorem instrOfOp_op_operands (i : Instr) : instrOfOp i.op i.operands = i := by
  cases i <;> rfl

/-- The opcode map's form of an instruction is the one bit 1 of its opcode selects (30_encoding.md R73, R74). -/
theorem Instr.row_immForm (i : Instr) : i.row.immForm = immediateForm i.op := by
  rw [← instrOfOp_row_immForm i.op i.operands, instrOfOp_op_operands]

/-- The opcode map's `readFirst` is the bit rule's (30_encoding.md R75). -/
theorem Instr.row_readFirst (i : Instr) : i.row.readFirst = readFirstOf i.op := by
  rw [← instrOfOp_row_readFirst i.op i.operands, instrOfOp_op_operands]

/-- The opcode map's `writeBack` is the opcode list's (30_encoding.md R76). -/
theorem Instr.row_writeBack (i : Instr) : i.row.writeBack = writeBackOf i.op := by
  rw [← instrOfOp_row_writeBack i.op i.operands, instrOfOp_op_operands]

@[simp] theorem op_decode (w : Word) : (decode w).op = fieldOp w := instrOfOp_op _ _

@[simp] theorem operands_decode (w : Word) : (decode w).operands = decodeOperands w := instrOfOp_operands _ _

@[simp] theorem fieldOp_encode (i : Instr) : fieldOp (encode i) = i.op := fieldOp_packFields _ _ _

@[simp] theorem fieldA_encode (i : Instr) : fieldA (encode i) = i.operands.ra := fieldA_packFields _ _ _

@[simp] theorem fieldB_encode (i : Instr) : fieldB (encode i) = encodeB i := fieldB_packFields _ _ _

/-- The low 4 bits of `sext_8` are the field (00_scope.md R12). -/
@[simp] theorem setWidth_sext8 (v : Nibble) : (sext8 v).setWidth 4 = v := by
  revert v; decide

/-- Field B of a decoded word is kept: in `rb` in the register form, in the immediate's low 4 bits in the immediate form. -/
@[simp] theorem encodeB_decode (w : Word) : encodeB (decode w) = fieldB w := by
  cases hform : immediateForm (fieldOp w) <;> simp [encodeB, Instr.row_immForm, decodeOperands, hform]

/-- A well-formed descriptor, field by field: only `op`, `ra` and field B of its word are free (30_encoding.md R72 to R76). -/
theorem Instr.operands_of_wellFormed {i : Instr} (h : i.wellFormed = true) :
    i.operands.rb = (if immediateForm i.op then Config.forcedIndex else encodeB i) ∧
    i.operands.imm = (if immediateForm i.op then sext8 (encodeB i) else 0#8) ∧
    i.operands.readFirst = readFirstOf i.op ∧ i.operands.writeBack = writeBackOf i.op := by
  simp only [Instr.wellFormed, Instr.readFirstOk, Instr.writeBackOk, Instr.secondIndexOk, Instr.immediateOk, Bool.and_eq_true,
    beq_iff_eq, Instr.row_immForm, Instr.row_readFirst, Instr.row_writeBack] at h
  obtain ⟨⟨⟨hread, hwrite⟩, hindex⟩, himm⟩ := h
  refine ⟨?_, ?_, hread, hwrite⟩
  · cases hform : immediateForm i.op
    · simp [encodeB, Instr.row_immForm, hform]
    · simpa [hform] using hindex
  · cases hform : immediateForm i.op
    · simpa [hform] using himm
    · simpa [hform, encodeB, Instr.row_immForm, sext8_eq_signExtend] using himm

/-- The decoder recovers a well-formed descriptor's five fields from its word. -/
theorem decodeOperands_encode {i : Instr} (h : i.wellFormed = true) : decodeOperands (encode i) = i.operands := by
  obtain ⟨hrb, himm, hread, hwrite⟩ := Instr.operands_of_wellFormed h
  simp only [decodeOperands, fieldOp_encode, fieldA_encode, fieldB_encode, ← hrb, ← himm, ← hread, ← hwrite]

/-- Settles O1: the word keeps the opcode, which names the constructor, and the fields, which fix the operands. -/
theorem decodeOfEncode : Obligations.DecodeOfEncode := by
  intro i h
  rw [decode, fieldOp_encode, decodeOperands_encode h, instrOfOp_op_operands]

/-- Settles O2: the encoder packs the three fields that the decoder took apart. -/
theorem encodeOfDecodeClearsX : Obligations.EncodeOfDecodeClearsX := by
  intro w
  rw [encode, op_decode, operands_decode, encodeB_decode]
  exact packFields_fields w

/-- Settles O4. -/
theorem everyWordDecodesWellFormed : Obligations.EveryWordDecodesWellFormed := wellFormed_decode

/-- Settles O5: each word's opcode picks its decoding rule, and its fields are those written. -/
theorem sampleWordsDecode : Obligations.SampleWordsDecode :=
  ⟨decode_ld rfl, decode_stx rfl, decode_bnn rfl, decode_rsv4 rfl, decode_addh rfl, decode_norih rfl⟩

/-! ### The descriptor of every word -/

/-- Bit 1 of the opcode is bit 9 of the word. -/
theorem immediateForm_fieldOp (w : Word) : immediateForm (fieldOp w) = w.getLsbD 9 := by
  simp [immediateForm, fieldOp]

/-- The low 3 bits of the opcode are bits 10:8 of the word. -/
theorem extractLsb'_fieldOp (w : Word) : (fieldOp w).extractLsb' 0 3 = w.extractLsb' 8 3 := by
  apply BitVec.eq_of_getLsbD_eq
  intro k hk
  simp [fieldOp, hk, show k < 4 by omega]

/-- The gate on the first read, by the opcode's low 3 bits (30_encoding.md R75). -/
theorem readFirstOf_eq_false_iff (op : Nibble) : readFirstOf op = false ↔ op.extractLsb' 0 3 = 7#3 := by
  simp [readFirstOf]

/-- The opcodes with no result, listed (30_encoding.md R76). -/
theorem writeBackOf_eq_false_iff (op : Nibble) : writeBackOf op = false ↔ op ∈ [1#4, 3#4, 4#4, 5#4, 6#4, 7#4] := by
  revert op; decide

end Sys2Proof

namespace Sys2Proof.Machine

/-- A gated first read goes through index 0 (40_pipeline.md R93). -/
theorem firstOperand_gated {d : Operands} (h : d.readFirst = false) (s : State) : firstOperand d s = 0#8 := by
  simp only [firstOperand, h, Bool.false_eq_true, if_false]
  exact regRead_zero_index rfl s

/-- Settles O3, field by field. -/
theorem descriptorFields : Obligations.DescriptorFields := by
  intro w
  rw [op_decode, operands_decode]
  refine ⟨rfl, rfl, fun himm => ?immediate, ?readFirst, fun hread s => firstOperand_gated hread s, ?writeBack⟩
  case immediate =>
    rw [← immediateForm_fieldOp] at himm
    simp [decodeOperands, himm, sext8_eq_signExtend, fieldB]
  case readFirst => exact (readFirstOf_eq_false_iff _).trans (by rw [extractLsb'_fieldOp])
  case writeBack => exact writeBackOf_eq_false_iff _

/-! ### The registers under every instruction -/

theorem sameRegs_of_regs_eq {s t : State} (h : t.regs = s.regs) : SameRegs s t := fun j => regRead_congr j h

/-- Writing back leaves the registers of every other index as they were (40_pipeline.md R98). -/
theorem regRead_writeBack_of_ne {j : Nibble} {d : Operands} (h : regIndex j ≠ regIndex d.ra) (v : Byte) (s : State) :
    regRead j (writeBack d v s) = regRead j s := by
  rw [writeBack_eq]
  split
  · exact regRead_regWrite_of_ne h v s
  · rfl

/-- A load writes through `ra` only. -/
theorem regRead_loadFrom_of_ne {a : Byte} {d : Operands} {s t : State} (h : loadFrom a d s = .next t) {j : Nibble}
    (hj : regIndex j ≠ regIndex d.ra) : regRead j t = regRead j s := by
  cases h
  rw [regRead_advance, regRead_writeBack_of_ne hj]
  exact regRead_congr j (memRead_regs a s)

/-- A store writes no register. -/
theorem sameRegs_storeTo {a : Byte} {d : Operands} {s t : State} (h : storeTo a d s = .next t) : SameRegs s t := by
  cases h
  exact sameRegs_of_regs_eq (by simp)

/-- An ALU instruction writes through `ra` only. -/
theorem regRead_finishAlu_of_ne {v : Byte} {d : Operands} {s t : State} (h : finishAlu d v s = .next t) {j : Nibble}
    (hj : regIndex j ≠ regIndex d.ra) : regRead j t = regRead j s := by
  cases h
  rw [regRead_advance, regRead_writeBack_of_ne hj]

/-- The registers under every instruction: stores, RSV4 and control transfers write none, the opcodes with a result write
through `ra` only (30_encoding.md R76, 40_pipeline.md R98). -/
theorem exec_regs_cases {i : Instr} {s t : State} (h : exec i s = .next t) :
    SameRegs s t ∨
    (writeBackOf i.op = true ∧ ∀ j, regIndex j ≠ regIndex i.operands.ra → regRead j t = regRead j s) := by
  cases i with
  | st d | stx d => exact .inl (sameRegs_storeTo h)
  | rsv4 d | jmp d | bnn d | jr d => cases h; exact .inl (sameRegs_of_regs_eq (by simp))
  | ld d | ldx d => exact .inr ⟨rfl, fun _ hj => regRead_loadFrom_of_ne h hj⟩
  | add d | nor d | addi d | nori d | addh d | norh d | addih d | norih d =>
    exact .inr ⟨rfl, fun _ hj => regRead_finishAlu_of_ne h hj⟩

/-- Settles O45. -/
theorem onlyResultsReachRegisters : Obligations.OnlyResultsReachRegisters := by
  intro i s t h
  rcases exec_regs_cases h with hsame | ⟨hop, hother⟩
  · exact ⟨fun _ => hsame, fun j _ => hsame j⟩
  · exact ⟨fun hno => absurd hop (by simp [(writeBackOf_eq_false_iff _).mpr hno]), hother⟩

/-! ### The reserved opcode -/

theorem isReserved_iff (i : Instr) : isReserved i = true ↔ i.op = 0x4#4 := beq_iff_eq

/-- Settles O46, by what a step that is not blocked can do: a warm-up, the fatal condition, or an execution. -/
theorem onlyReservedOpcodeIsFatal : Obligations.OnlyReservedOpcodeIsFatal := by
  intro s t h hf
  rcases step_cases h with ⟨hf', -⟩ | ⟨-, hdl, rfl⟩ | ⟨i, -, hdl, hi, rfl⟩ | ⟨i, u, m, -, hdl, hi, rfl, hm⟩
  · simp [hf] at hf'
  · simp [hf, hdl]
  · simpa [hdl] using (isReserved_iff i).mp hi
  · have hop : i.op ≠ 0x4#4 := fun hop => by simp [(isReserved_iff i).mpr hop] at hi
    simp [hm.fatal, hf, hdl, hop]

/-! ### The pseudo-instructions -/

/-- Register `i` takes `v` and no data access is made: all that straight-line ALU code does, the pipeline left out. -/
def WritesOnly (i : Nibble) (v : Byte) (s t : State) : Prop := OnlyReg i v s t ∧ NoDataAccess s t

section
variable {i : Nibble} {v v' : Byte} {s m t : State}

/-- A written real cell reads the value. -/
theorem WritesOnly.regRead_self (h : WritesOnly i v s t) (hi : regIndex i ≠ 0#3) : regRead i t = v := by
  simp [h.1 i, hi]

/-- The other indices read as before. -/
theorem WritesOnly.regRead_of_ne (h : WritesOnly i v s t) {j : Nibble} (hj : regIndex j ≠ regIndex i) :
    regRead j t = regRead j s := by
  simp [h.1 j, hj]

/-- Writing index 0 or 8 changes no register (10_state.md R23). -/
theorem WritesOnly.sameRegs (h : WritesOnly i v s t) (hi : regIndex i = 0#3) : SameRegs s t := fun j => by
  simp [h.1 j, hi]

/-- The value matters for a real cell only. -/
theorem WritesOnly.congr (h : WritesOnly i v s t) (hv : regIndex i ≠ 0#3 → v = v') : WritesOnly i v' s t := by
  refine ⟨fun j => ?_, h.2⟩
  by_cases hi : regIndex i = 0#3
  · simp [h.1 j, hi]
  · rw [h.1 j, hv hi]

/-- Of two writes to one register the second is left. -/
theorem WritesOnly.trans (h : WritesOnly i v s m) (h' : WritesOnly i v' m t) : WritesOnly i v' s t := by
  refine ⟨fun j => ?_, h.2.trans h'.2⟩
  rw [h'.1 j, h.1 j]
  split <;> rfl

/-- An ALU instruction that writes back (43_alu.md R131). -/
theorem writesOnly_finishAlu {d : Operands} (hd : d.writeBack = true) (h : finishAlu d v s = .next t) :
    WritesOnly d.ra v s t := by
  refine ⟨fun j => ?_, noDataAccess_finishAlu h⟩
  cases h
  rw [regRead_advance, writeBack_eq, if_pos hd]
  exact onlyReg_regWrite d.ra v s j

end

@[simp] theorem fieldOp_asmFields (op : Nibble) (a : AsmReg) (b : Nibble) : fieldOp (asmFields op a b) = op :=
  fieldOp_packFields _ _ _

@[simp] theorem fieldA_asmFields (op : Nibble) (a : AsmReg) (b : Nibble) : fieldA (asmFields op a b) = a.setWidth 4 :=
  fieldA_packFields _ _ _

@[simp] theorem fieldB_asmFields (op : Nibble) (a : AsmReg) (b : Nibble) : fieldB (asmFields op a b) = b :=
  fieldB_packFields _ _ _

/-- An assembler register number keeps its value as an index. -/
@[simp] theorem regIndex_setWidth (a : AsmReg) : regIndex (a.setWidth 4) = a := by
  revert a; decide

/-- What an assembled `ADD rA, rB` does (43_alu.md R132). -/
theorem exec_assemble_add (a b : AsmReg) (s : State) :
    ∃ t, exec (decode (assemble (.add a b))) s = .next t ∧
      WritesOnly (a.setWidth 4) (regRead (a.setWidth 4) s + regRead (b.setWidth 4) s) s t := by
  rw [assemble, decode_add (fieldOp_asmFields _ _ _), fieldA_asmFields, fieldB_asmFields]
  exact ⟨_, rfl, writesOnly_finishAlu rfl rfl⟩

/-- What an assembled `ADDI rA, i` does (43_alu.md R134). -/
theorem exec_assemble_addi (a : AsmReg) (i : Nibble) (s : State) :
    ∃ t, exec (decode (assemble (.addi a i))) s = .next t ∧
      WritesOnly (a.setWidth 4) (regRead (a.setWidth 4) s + i.signExtend 8) s t := by
  rw [assemble, decode_addi (fieldOp_asmFields _ _ _), fieldA_asmFields, fieldB_asmFields, sext8_eq_signExtend]
  exact ⟨_, rfl, writesOnly_finishAlu rfl rfl⟩

/-- What an assembled `NORI rA, i` does (43_alu.md R135). -/
theorem exec_assemble_nori (a : AsmReg) (i : Nibble) (s : State) :
    ∃ t, exec (decode (assemble (.nori a i))) s = .next t ∧
      WritesOnly (a.setWidth 4) (~~~(regRead (a.setWidth 4) s ||| i.signExtend 8)) s t := by
  rw [assemble, decode_nori (fieldOp_asmFields _ _ _), fieldA_asmFields, fieldB_asmFields, sext8_eq_signExtend]
  exact ⟨_, rfl, writesOnly_finishAlu rfl rfl⟩

/-- `NORI rA, 0` complements the register. -/
theorem exec_assemble_nori_zero (a : AsmReg) (s : State) :
    ∃ t, exec (decode (assemble (.nori a 0#4))) s = .next t ∧
      WritesOnly (a.setWidth 4) (~~~regRead (a.setWidth 4) s) s t := by
  simpa using exec_assemble_nori a 0#4 s

/-- `NORI rA, -1` clears the register, whatever it held. -/
theorem exec_assemble_nori_ones (a : AsmReg) (s : State) :
    ∃ t, exec (decode (assemble (.nori a 0xF#4))) s = .next t ∧ WritesOnly (a.setWidth 4) 0#8 s t := by
  have hones : ∀ x : Byte, ~~~(x ||| (0xF#4).signExtend 8) = 0#8 := by decide
  simpa only [hones] using exec_assemble_nori a 0xF#4 s

/-- Executing one word. -/
theorem execWords_one {w : Word} {s t : State} (h : exec (decode w) s = .next t) : execWords [w] s = .next t := by
  simp [execWords, h]

/-- Executing two words one after the other. -/
theorem execWords_two {w w' : Word} {s m t : State} (h : exec (decode w) s = .next m) (h' : exec (decode w') m = .next t) :
    execWords [w, w'] s = .next t := by
  simp [execWords, h, h']

/-- The words of a pseudo-instruction, executed one after the other, leave a state that meets `P` (30_encoding.md R84). -/
def PseudoMeets (p : Pseudo) (s : State) (P : State → Prop) : Prop :=
  ∃ t, execWords ((expand p).map assemble) s = .next t ∧ P t

section
variable (s : State) (a b : AsmReg) (i : Nibble)

theorem pseudoMeets_nop : PseudoMeets .nop s fun t => SameRegs s t ∧ NoDataAccess s t := by
  obtain ⟨t, hexec, ht⟩ := exec_assemble_add 0#3 0#3 s
  exact ⟨t, execWords_one hexec, ht.sameRegs rfl, ht.2⟩

theorem pseudoMeets_clr : PseudoMeets (.clr a) s (WritesOnly (a.setWidth 4) 0#8 s) := by
  obtain ⟨t, hexec, ht⟩ := exec_assemble_nori_ones a s
  exact ⟨t, execWords_one hexec, ht⟩

theorem pseudoMeets_not : PseudoMeets (.not a) s (WritesOnly (a.setWidth 4) (~~~regRead (a.setWidth 4) s) s) := by
  obtain ⟨t, hexec, ht⟩ := exec_assemble_nori_zero a s
  exact ⟨t, execWords_one hexec, ht⟩

/-- A register added to itself is shifted left. -/
theorem pseudoMeets_shl : PseudoMeets (.shl a) s (WritesOnly (a.setWidth 4) (regRead (a.setWidth 4) s <<< 1) s) := by
  obtain ⟨t, hexec, ht⟩ := exec_assemble_add a a s
  exact ⟨t, execWords_one hexec, ht.congr fun _ => by bv_omega⟩

/-- The complement plus 1 is the negative. -/
theorem pseudoMeets_neg : PseudoMeets (.neg a) s (WritesOnly (a.setWidth 4) (-regRead (a.setWidth 4) s) s) := by
  obtain ⟨m, hexec, hm⟩ := exec_assemble_nori_zero a s
  obtain ⟨t, hexec', ht⟩ := exec_assemble_addi a 1#4 m
  refine ⟨t, execWords_two hexec hexec', (hm.trans ht).congr fun ha => ?_⟩
  rw [hm.regRead_self ha, BitVec.neg_eq_not_add]
  rfl

/-- The immediate is added to the cleared register. -/
theorem pseudoMeets_li : PseudoMeets (.li a i) s (WritesOnly (a.setWidth 4) (i.signExtend 8) s) := by
  obtain ⟨m, hexec, hm⟩ := exec_assemble_nori_ones a s
  obtain ⟨t, hexec', ht⟩ := exec_assemble_addi a i m
  refine ⟨t, execWords_two hexec hexec', (hm.trans ht).congr fun ha => ?_⟩
  rw [hm.regRead_self ha, BitVec.zero_add]

/-- The other register, which clearing rA left as it was, is added to the cleared one. -/
theorem pseudoMeets_mov (hab : a ≠ b) :
    PseudoMeets (.mov a b) s (WritesOnly (a.setWidth 4) (regRead (b.setWidth 4) s) s) := by
  obtain ⟨m, hexec, hm⟩ := exec_assemble_nori_ones a s
  obtain ⟨t, hexec', ht⟩ := exec_assemble_add a b m
  refine ⟨t, execWords_two hexec hexec', (hm.trans ht).congr fun ha => ?_⟩
  have hb : regRead (b.setWidth 4) m = regRead (b.setWidth 4) s := hm.regRead_of_ne (by simpa using hab.symm)
  rw [hm.regRead_self ha, BitVec.zero_add, hb]

end

/-- Settles O29, one pseudo-instruction after the other. -/
theorem pseudoInstructionEffects : Obligations.PseudoInstructionEffects := fun s a b i =>
  ⟨pseudoMeets_nop s, pseudoMeets_clr s a, pseudoMeets_not s a, pseudoMeets_shl s a, pseudoMeets_neg s a,
    pseudoMeets_li s a i, pseudoMeets_mov s a b⟩

end Sys2Proof.Machine

/-! PROOFS of the family 40_pipeline.md: the operands of a decoded word, what a step does with the two latches, the delay slots
that follow from it, the warm-up after reset, and the fatal core. -/

namespace Sys2Proof.Machine

/-! ### The operands of a decoded word -/

/-- The gate of a decoded word is the opcode's low 3 bits (30_encoding.md R75). -/
theorem readFirst_decode_eq_false_iff (w : Word) :
    (decode w).operands.readFirst = false ↔ (w.extractLsb' 8 3 : BitVec 3) = 7#3 := by
  rw [operands_decode, ← extractLsb'_fieldOp]
  exact readFirstOf_eq_false_iff _

/-- v1 is x[A], or 0 behind the gate (40_pipeline.md R93). -/
theorem firstOperand_decode (w : Word) (s : State) :
    firstOperand (decode w).operands s =
      if (w.extractLsb' 8 3 : BitVec 3) = 7#3 then 0#8 else regRead (fieldA w) s := by
  split
  · next hgated => exact firstOperand_gated ((readFirst_decode_eq_false_iff w).mpr hgated) s
  · next hopen =>
    have hread : (decode w).operands.readFirst = true :=
      Bool.eq_true_of_not_eq_false (mt (readFirst_decode_eq_false_iff w).mp hopen)
    rw [firstOperand, if_pos hread, operands_decode]
    rfl

/-- The forced index 15 of the immediate form is a name of r7 (30_encoding.md R74, 10_state.md R22). -/
theorem regRead_forcedIndex (s : State) : regRead Config.forcedIndex s = regRead 7#4 s :=
  regRead_eq_of_regIndex_eq rfl s

/-- v2 is x[7] in the immediate form and x[B] in the register form (40_pipeline.md R93). -/
theorem secondOperand_decode (w : Word) (s : State) :
    secondOperand (decode w).operands s = if w.getLsbD 9 then regRead 7#4 s else regRead (fieldB w) s := by
  rw [← immediateForm_fieldOp, operands_decode]
  cases hform : immediateForm (fieldOp w) with
  | false => simp [secondOperand, decodeOperands, hform]
  | true => simp [secondOperand, decodeOperands, hform, ← regRead_forcedIndex]

/-- Settles O7. -/
theorem operandRead : Obligations.OperandRead := fun w s => ⟨firstOperand_decode w s, secondOperand_decode w s⟩

/-! ### The latches under a step -/

/-- Phases (2) to (4) fetch at the pc and decode the latch that phase (1) left as they stood (40_pipeline.md R95, R96). -/
theorem pipelineMoved_advance {s m : State} (hm : ExecutePhase s m) (u : PcUpdate) : PipelineMoved s (advance u m) where
  rom := by rw [advance_rom, hm.rom]
  fatal := by rw [advance_fatal, hm.fatal]
  fetched := by rw [advance_fl, hm.pc, romWord_congr _ s m hm.rom]
  decoded := fun w hw => by simp [advance_dl, hm.fl, hw]
  kept := fun hnone => by simp [advance_dl, hm.fl, hnone, hm.dl]

/-- A step that leaves FATAL = 0 moves the pipeline: the blocked and the fatal step leave FATAL = 1. -/
theorem pipelineMoved_step {s t : State} (h : step s = .next t) (ht : t.fatal = false) : PipelineMoved s t := by
  rcases step_cases h with ⟨hf, rfl⟩ | ⟨-, -, rfl⟩ | ⟨i, -, -, -, rfl⟩ | ⟨i, u, m, -, -, -, rfl, hm⟩
  · simp [hf] at ht
  · exact pipelineMoved_advance (executePhase_refl s) _
  · simp at ht
  · exact pipelineMoved_advance hm u

/-- A step never clears FATAL (40_pipeline.md R90). -/
theorem not_fatal_of_step {s t : State} (h : step s = .next t) (ht : t.fatal = false) : s.fatal = false :=
  (pipelineMoved_step h ht).fatal.symm.trans ht

/-- Settles O32. -/
theorem everyStepDecodesAndFetches : Obligations.EveryStepDecodesAndFetches := fun _ _ h _ ht => pipelineMoved_step h ht

/-- Settles O30. -/
theorem stepExecutesDecodeLatch : Obligations.StepExecutesDecodeLatch := fun _ _ hf hdl => step_of_latch hf hdl

/-- Settles O33. -/
theorem fatalCoreNeverSteps : Obligations.FatalCoreNeverSteps := fun _ hf => step_of_fatal hf

/-- Settles O31: with an empty latch a step is phases (2) to (4) alone, and after reset phase (2) has no word to decode. -/
theorem emptyLatchExecutesNothing : Obligations.EmptyLatchExecutesNothing := by
  refine ⟨fun s hf hdl => ⟨_, step_of_emptyLatch hf hdl, ?_⟩, fun r => ⟨rfl, fun t h => ?_⟩⟩
  · exact ⟨advance_add_pc _ s, advance_regs _ s, advance_mem _ s, fun p => port_advance p _ s, advance_events _ s,
      pipelineMoved_advance (executePhase_refl s) _⟩
  · cases h
    rfl

/-! ### From fetch to execution -/

/-- No step changes what a ROM address reads. -/
theorem romWord_step {s t : State} (h : step s = .next t) (a : Byte) : romWord a t = romWord a s :=
  romWord_congr a s t (step_rom h)

/-- The word in the fetch latch executes in the next step (40_pipeline.md R95). -/
theorem step_of_fetchLatch {s t : State} {w : Word} (h : step s = .next t) (ht : t.fatal = false) (hfl : s.fl = some w) :
    step t = exec (decode w) t :=
  step_of_latch ht ((pipelineMoved_step h ht).decoded w hfl)

/-- The word at pc executes two steps later (40_pipeline.md R101). -/
theorem step_of_fetched {s m t : State} (h : step s = .next m) (h' : step m = .next t) (ht : t.fatal = false) :
    step t = exec (decode (romWord s.pc s)) t :=
  step_of_fetchLatch h' ht (pipelineMoved_step h (not_fatal_of_step h' ht)).fetched

/-- Settles O35. -/
theorem fetchedWordExecutesTwoStepsLater : Obligations.FetchedWordExecutesTwoStepsLater :=
  fun _ _ _ h h' _ _ ht => step_of_fetched h h' ht

/-! ### Control transfers and their delay slots -/

/-- JR's target is never conditional (42_control.md R123). -/
theorem transferTarget_jr {w : Word} (h : fieldOp w = 0x7#4) (s : State) :
    transferTarget w s = s.pc + (fieldB w).signExtend 8 := by
  simp [transferTarget, h]

/-- The pc after BNN, by the sign it tests (42_control.md R122). -/
theorem transferTarget_bnn {w : Word} (h : fieldOp w = 0x6#4) (s : State) :
    transferTarget w s = s.pc + if nonNegative (regRead (fieldA w) s) then (fieldB w).signExtend 8 else 1#8 := by
  cases hsign : (regRead (fieldA w) s)[7] with
  | false => simp [transferTarget, nonNegative, h, hsign]
  | true => simp [transferTarget, nonNegative, h, hsign]

/-- Executing a control transfer sets pc to its target (42_control.md R121 to R123). -/
theorem pc_of_transfer {w : Word} {s t : State} (hop : fieldOp w = 0x5#4 ∨ fieldOp w = 0x6#4 ∨ fieldOp w = 0x7#4)
    (h : exec (decode w) s = .next t) : t.pc = transferTarget w s := by
  rcases hop with hop | hop | hop
  · rw [decode_jmp hop] at h
    cases h
    simp [transferTarget, hop, secondOperand]
  · rw [decode_bnn hop] at h
    cases h
    simp [transferTarget_bnn hop, firstOperand, sext8_eq_signExtend]
  · rw [decode_jr hop] at h
    cases h
    simp [transferTarget_jr hop, sext8_eq_signExtend]

/-- Settles O36: the two delay slots are the words already in the pipeline when the transfer executes, and the target is the
next pc to fetch at. -/
theorem twoDelaySlotsAlwaysExecute : Obligations.TwoDelaySlotsAlwaysExecute := by
  intro s s1 s2 s3 w f hop hf hdl hfl h1 h2 h3 hf2 hf3
  have hf1 : s1.fatal = false := not_fatal_of_step h2 hf2
  have htarget : s1.pc = transferTarget w s := pc_of_transfer hop ((step_of_latch hf hdl).symm.trans h1)
  refine ⟨htarget, step_of_fetchLatch h1 hf1 hfl, step_of_fetched h1 h2 hf2, ?_⟩
  rw [step_of_fetched h2 h3 hf3, htarget, romWord_step h1]

/-- Executing a JR adds its increment to pc (42_control.md R123). -/
theorem pc_of_jr {w : Word} {s t : State} (hop : fieldOp w = 0x7#4) (h : exec (decode w) s = .next t) :
    t.pc = s.pc + (fieldB w).signExtend 8 :=
  (pc_of_transfer (.inr (.inr hop)) h).trans (transferTarget_jr hop s)

/-- Settles O37: each JR adds to the pc that stands when it executes, and each pc so made is fetched at in the next step. -/
theorem jrInDelaySlotOfJr : Obligations.JrInDelaySlotOfJr := by
  intro s s1 s2 s3 s4 w1 w2 hop1 hop2 hf hdl hfl h1 h2 h3 h4 hf3 hf4
  have hf2 : s2.fatal = false := not_fatal_of_step h3 hf3
  have hf1 : s1.fatal = false := not_fatal_of_step h2 hf2
  have hpc1 : s1.pc = s.pc + (fieldB w1).signExtend 8 := pc_of_jr hop1 ((step_of_latch hf hdl).symm.trans h1)
  have hpc2 : s2.pc = s.pc + (fieldB w1).signExtend 8 + (fieldB w2).signExtend 8 := by
    rw [← hpc1]
    exact pc_of_jr hop2 ((step_of_fetchLatch h1 hf1 hfl).symm.trans h2)
  refine ⟨hpc1, hpc2, step_of_fetched h1 h2 hf2, ?_, ?_⟩
  · rw [step_of_fetched h2 h3 hf3, hpc1, romWord_step h1]
  · rw [step_of_fetched h3 h4 hf4, hpc2, romWord_step h2, romWord_step h1]

/-! ### The warm-up after reset (40_pipeline.md R100) -/

/-- The state one step after construction: the word at 0 is fetched. -/
def warmingUp (r : Rom) : State :=
  { construct r with pc := 1#8, fl := some (romWord 0#8 (construct r)) }

/-- The state two steps after construction: the word at 0 is decoded, the word at 1 is fetched. -/
def warmedUp (r : Rom) : State :=
  { construct r with
    pc := 2#8
    fl := some (romWord 1#8 (construct r))
    dl := some (decode (romWord 0#8 (construct r))) }

theorem step_construct (r : Rom) : step (construct r) = .next (warmingUp r) := rfl

theorem step_warmingUp (r : Rom) : step (warmingUp r) = .next (warmedUp r) := rfl

/-- The warm-up moves only pc and the latches. -/
theorem noDataAccess_warmedUp (r : Rom) : NoDataAccess (construct r) (warmedUp r) where
  ram := fun _ => ramRead_congr _ rfl
  ports := fun _ => port_congr _ rfl rfl
  events := rfl

/-- Settles O34. -/
theorem warmUpFromReset : Obligations.WarmUpFromReset := fun r =>
  ⟨_, _, step_construct r, step_warmingUp r, rfl, rfl, rfl, rfl, rfl, rfl, sameRegs_of_regs_eq rfl, noDataAccess_warmedUp r,
    step_of_latch rfl rfl⟩

/-! ### Placing a word for the next step (log 8) -/

/-- A 16-bit table word is read whole. -/
theorem ofNat_toNat_mod (w : Word) : BitVec.ofNat 16 (w.toNat % 2 ^ 16) = w := by
  rw [Nat.mod_eq_of_lt w.isLt, BitVec.ofNat_toNat, BitVec.setWidth_eq]

/-- Placing a table word of 16 bits fills the pipeline with it. -/
theorem withFetchWord_toNat (s : State) (w : Word) : s.withFetchWord 16 w.toNat = fillPipeline w s := by
  rw [State.withFetchWord, ofNat_toNat_mod]

/-- Settles O58: the filled pipeline holds the decoded word in the decode latch of a core that is not fatal. -/
theorem fetchWordRunsNext : Obligations.FetchWordRunsNext := by
  refine fun s w => ⟨?_, ?_⟩
  · rw [withFetchWord_toNat]
    exact step_of_latch (fillPipeline_fatal w s) (fillPipeline_dl w s)
  · rw [decodeTableWord, if_pos le_rfl, ofNat_toNat_mod]

/-- The ROM with the word at address 0 and no other word supplied. -/
def romOfWord (w : Word) : Rom := cellWrite Config.romDefault [] 0 w

theorem romOfWord_wf (w : Word) : Rom.wf (romOfWord w) := cellWrite_wf reset_rom_wf w (Nat.zero_le 0) (by decide)

/-- What the ROM of one word reads. -/
theorem romWord_romOfWord (a : Byte) (w : Word) : romWord a (construct (romOfWord w)) = if a = 0#8 then w else 0#16 := by
  have hzero : a.toNat = 0 ↔ a = 0#8 := by bv_omega
  simp only [romWord, construct_rom, romOfWord, cellRead_cellWrite List.Pairwise.nil, hzero]
  rfl

/-- Filling the pipeline of the reset state is warming up from the ROM of that word. -/
theorem fillPipeline_reset (w : Word) : fillPipeline w State.reset = warmedUp (romOfWord w) := by
  rw [warmedUp, romWord_romOfWord 0#8 w, if_pos rfl]
  rfl

/-- Settles O59: two steps of warm-up from the ROM of that word. -/
theorem fetchWordIsWarmUp : Obligations.FetchWordIsWarmUp := by
  refine fun w => ⟨romOfWord w, warmingUp _, romOfWord_wf w, ?_, fun a ha => ?_, step_construct _, ?_⟩
  · rw [romWord_romOfWord, if_pos rfl]
  · rw [romWord_romOfWord, if_neg ha]
  · rw [withFetchWord_toNat, fillPipeline_reset]
    exact step_warmingUp _

/-! ### The fatal core -/

/-- Replacing a port replaces at most the two ports. -/
theorem setPort_eq (p : PortId) (q : Port) (s : State) : ∃ q0 q1, s.setPort p q = { s with port0 := q0, port1 := q1 } := by
  cases p <;> exact ⟨_, _, rfl⟩

/-- On a fatal core every action but reset leaves all but the port slots (10_state.md R37, 60_exceptions.md R168). -/
theorem perform_of_fatal {act : Action} {s t : State} (hf : s.fatal = true) (hact : act ≠ .reset)
    (h : perform act s = .next t) : ∃ q0 q1, t = { s with port0 := q0, port1 := q1 } := by
  rcases perform_cases h with ⟨-, hstep⟩ | ⟨hreset, -⟩ | rfl | ⟨p, q, rfl⟩
  · rw [step_of_fatal hf] at hstep
    cases hstep
    exact ⟨_, _, rfl⟩
  · exact absurd hreset hact
  · exact ⟨_, _, rfl⟩
  · exact setPort_eq p q s

/-- Settles O49, by induction on the actions: each keeps FATAL and all but the port slots. -/
theorem fatalIsFinal : Obligations.FatalIsFinal := by
  intro acts
  induction acts with
  | nil =>
    intro s t _ _ h
    cases h
    exact ⟨_, _, rfl⟩
  | cons act acts ih =>
    intro s t hf hreset h
    rw [List.mem_cons, not_or] at hreset
    obtain ⟨hact, hacts⟩ := hreset
    obtain ⟨m, hperform, hrun⟩ := runActions_cons h
    obtain ⟨q0, q1, rfl⟩ := perform_of_fatal hf (Ne.symm hact) hperform
    exact ih { s with port0 := q0, port1 := q1 } t hf hacts hrun

end Sys2Proof.Machine

/-! PROOFS of the family 41_load_store.md: the two loads and the two stores, each from what its data access does, what phase (1)
leaves for the later phases, and the address its operands name. -/

namespace Sys2Proof.Machine

/-! ### Loads -/

/-- What a load from address `a` into register `i` does (41_load_store.md R110, R112): the register takes the controller's answer,
the ports and the event list are as the read leaves them, and the pipeline goes on. -/
def LoadEffect (i : Nibble) (a : Byte) (s t : State) : Prop :=
  OnlyReg i (memRead a s).1 s t ∧ SameRam s t ∧
  (∀ p, t.port p = (memRead a s).2.port p) ∧
  t.events = (memRead a s).2.events ∧
  t.pc = s.pc + 1#8 ∧ PipelineMoved s t

/-- A register write after a phase that touches no register differs from the state before that phase in that register only. -/
theorem onlyReg_writeBack {d : Operands} (hd : d.writeBack = true) (v : Byte) {s m : State} (hm : m.regs = s.regs) :
    OnlyReg d.ra v s (writeBack d v m) := fun j => by
  rw [writeBack_eq, if_pos hd, onlyReg_regWrite d.ra v m j, regRead_congr j hm]

/-- A load that writes back: the read is made first, and writing back and phases (2) to (4) make no data access. -/
theorem loadEffect_loadFrom {a : Byte} {d : Operands} {s t : State} (hd : d.writeBack = true)
    (h : loadFrom a d s = .next t) : LoadEffect d.ra a s t := by
  have hram : SameRam s t := sameRam_loadFrom h
  cases h
  have hnone : NoDataAccess (memRead a s).2 _ :=
    (noDataAccess_writeBack d (memRead a s).1 _).trans (noDataAccess_advance (.add 1#8) _)
  refine ⟨fun j => ?_, hram, hnone.ports, hnone.events, by simp, ?_⟩
  · rw [regRead_advance]
    exact onlyReg_writeBack hd _ (memRead_regs a s) j
  · exact pipelineMoved_advance (executePhase_writeBack (executePhase_memRead a s) d _) _

/-! ### Stores -/

/-- What a store of `v` at address `a` does (41_load_store.md R111, R113): the data access and the pipeline's going on. -/
def StoreEffect (a v : Byte) (s t : State) : Prop :=
  StoredAt a v s t ∧ SameRegs s t ∧ t.pc = s.pc + 1#8 ∧ PipelineMoved s t

/-- A later phase that makes no data access keeps what was stored. -/
theorem storedAt_of_noDataAccess {a v : Byte} {s m t : State} (h : StoredAt a v s m) (ht : NoDataAccess m t) :
    StoredAt a v s t := by
  obtain ⟨hother, hcell, hsame, hports, hevents⟩ := h
  exact ⟨fun b hb => (ht.ram b).trans (hother b hb), fun ha => (ht.ram a).trans (hcell ha),
    fun ha b => (ht.ram b).trans (hsame ha b), fun p => (ht.ports p).trans (hports p), ht.events.trans hevents⟩

/-- A data-out address is below the RAM (20_memory.md R42). -/
theorem dataOutAddress_lt_ram (p : PortId) : (dataOutAddress p).toNat < 0xF0 := by
  cases p <;> decide

/-- The stores that emit no event are those at a data-out address and those in the RAM (20_memory.md R47, R51). -/
theorem silentStore_iff (a : Byte) :
    (a = 0x01#8 ∨ a = 0x03#8 ∨ 0xF0 ≤ a.toNat) ↔ (∃ p, a = dataOutAddress p) ∨ 0xF0 ≤ a.toNat := by
  constructor
  · rintro (rfl | rfl | ha)
    · exact .inl ⟨.port0, rfl⟩
    · exact .inl ⟨.port1, rfl⟩
    · exact .inr ha
  · rintro (⟨_ | _, rfl⟩ | ha)
    · exact .inl rfl
    · exact .inr (.inl rfl)
    · exact .inr (.inr ha)

/-- Each port has its own data-out address (20_memory.md R42). -/
theorem dataOutAddress_inj {p q : PortId} : dataOutAddress p = dataOutAddress q ↔ q = p := by
  cases p <;> cases q <;> decide

/-- Below the RAM and off the data-out addresses a store is only reported (20_memory.md R49, R50). -/
theorem storedAt_emit {a : Byte} (hlow : a.toNat < 0xF0) (hout : ∀ p, a ≠ dataOutAddress p) (v : Byte) (s : State) :
    StoredAt a v s (emit (.writeUnmapped a) s) := by
  have hram : SameRam s (emit (.writeUnmapped a) s) := fun b => ramRead_congr b (emit_mem _ s)
  refine ⟨fun b _ => hram b, fun ha => absurd ha (by omega), fun _ => hram, fun p => ?_, ?_⟩
  · rw [if_neg (hout p)]
    exact port_congr p (emit_port0 _ s) (emit_port1 _ s)
  · have hloud : ¬((∃ p, a = dataOutAddress p) ∨ 0xF0 ≤ a.toNat) := not_or.mpr ⟨not_exists.mpr hout, by omega⟩
    rw [if_neg (mt (silentStore_iff a).mp hloud), emit_events]

/-- A store at a data-out address fills that port's outbound slot (20_memory.md R51). -/
theorem storedAt_putOutbound (p : PortId) (v : Byte) (s : State) : StoredAt (dataOutAddress p) v s (putOutbound p v s) := by
  have hport : OnlyPort p s (putOutbound p v s) := onlyPort_setPort _ _ _
  have hram : SameRam s (putOutbound p v s) := fun b => ramRead_congr b hport.mem
  have hlow := dataOutAddress_lt_ram p
  refine ⟨fun b _ => hram b, fun ha => absurd ha (by omega), fun _ => hram, fun q => ?_, ?_⟩
  · simp only [dataOutAddress_inj, putOutbound, port_setPort]
    split
    · next hq => rw [hq]
    · rfl
  · rw [if_pos ((silentStore_iff _).mpr (.inl ⟨p, rfl⟩)), hport.events]

/-- A store in the RAM sets that cell (20_memory.md R47). -/
theorem storedAt_ramWrite {s : State} (hwf : Memory.wf s.mem) {a : Byte} (ha : 0xF0 ≤ a.toNat) (v : Byte) :
    StoredAt a v s (ramWrite a v s) := by
  refine ⟨fun b hb => ?_, fun _ => ?_, fun hlow => absurd hlow (by omega), fun p => ?_, ?_⟩
  · rw [ramRead_ramWrite hwf, if_neg hb]
  · rw [ramRead_ramWrite hwf, if_pos rfl]
  · have hp := dataOutAddress_lt_ram p
    rw [if_neg (by rintro rfl; omega)]
    exact port_congr p (ramWrite_port0 a v s) (ramWrite_port1 a v s)
  · rw [if_pos ((silentStore_iff a).mpr (.inr ha)), ramWrite_events]

/-- A controller write stores, in each of the four regions of the address space (20_memory.md R48). -/
theorem storedAt_memWrite {s : State} (hwf : Memory.wf s.mem) (a v : Byte) : StoredAt a v s (memWrite a v s) := by
  rcases address_cases a with ⟨p, rfl⟩ | ⟨p, rfl⟩ | ⟨hlo, hhi⟩ | ha
  · rw [memWrite_dataInAddress]
    exact storedAt_emit (by cases p <;> decide) (fun q => by cases p <;> cases q <;> decide) v s
  · rw [memWrite_dataOutAddress]
    exact storedAt_putOutbound p v s
  · rw [memWrite_unmapped hlo hhi]
    exact storedAt_emit (by omega) (fun q => by rintro rfl; cases q <;> exact absurd hlo (by decide)) v s
  · rw [memWrite_ram ha]
    exact storedAt_ramWrite hwf ha v

/-- A store makes its access in phase (1), and phases (2) to (4) make none. -/
theorem storeEffect_storeTo {a : Byte} {d : Operands} {s t : State} (hwf : Memory.wf s.mem)
    (h : storeTo a d s = .next t) : StoreEffect a (firstOperand d s) s t := by
  have hregs : SameRegs s t := sameRegs_storeTo h
  cases h
  exact ⟨storedAt_of_noDataAccess (storedAt_memWrite hwf a _) (noDataAccess_advance _ _), hregs, by simp,
    pipelineMoved_advance (executePhase_memWrite a _ s) _⟩

/-! ### The four instructions -/

/-- The address of the indexed form, whose forced index is a name of r7 (41_load_store.md R114, 30_encoding.md R74). -/
theorem indexedAddress_sext8 {d : Operands} {b : Nibble} (hrb : d.rb = Config.forcedIndex) (himm : d.imm = sext8 b)
    (s : State) : indexedAddress d s = regRead 7#4 s + b.signExtend 8 := by
  rw [indexedAddress, secondOperand, hrb, himm, regRead_forcedIndex, sext8_eq_signExtend]

/-- Settles O13: the register form's second operand x[B] is the address. -/
theorem ldLoadsIndirect : Obligations.LdLoadsIndirect := fun _ _ hop =>
  ⟨_, _, decode_ld hop, rfl, loadEffect_loadFrom rfl rfl⟩

/-- Settles O14: a load at the indexed address. -/
theorem ldxLoadsIndexed : Obligations.LdxLoadsIndexed := by
  intro w s hop
  refine ⟨_, _, decode_ldx hop, rfl, ?_⟩
  rw [← indexedAddress_sext8 (d := ⟨fieldA w, 15#4, sext8 (fieldB w), true, true⟩) rfl rfl s]
  exact loadEffect_loadFrom rfl rfl

/-- Settles O15: the register form's second operand x[B] is the address, and the ungated first operand x[A] the value. -/
theorem stStoresIndirect : Obligations.StStoresIndirect := fun _ _ hwf hop =>
  ⟨_, _, decode_st hop, rfl, storeEffect_storeTo hwf rfl⟩

/-- Settles O16: a store at the indexed address. -/
theorem stxStoresIndexed : Obligations.StxStoresIndexed := by
  intro w s hwf hop
  refine ⟨_, _, decode_stx hop, rfl, ?_⟩
  rw [← indexedAddress_sext8 (d := ⟨fieldA w, 15#4, sext8 (fieldB w), true, false⟩) rfl rfl s]
  exact storeEffect_storeTo hwf rfl

end Sys2Proof.Machine

/-! PROOFS of the family 42_control.md: the reserved opcode, the three control transfers, each from what a pending pc update does to
the state, and that no other instruction keeps pc from advancing by one. -/

namespace Sys2Proof.Machine

/-! ### Control transfers -/

/-- What a control transfer to `a` does (42_control.md R121 to R123): it sets pc, and nothing else but the pipeline moves. -/
def TransferTo (a : Byte) (s t : State) : Prop :=
  t.pc = a ∧ SameRegs s t ∧ NoDataAccess s t ∧ PipelineMoved s t

/-- Phases (2) to (4) alone are a transfer to the pc that the pending update leaves. -/
theorem transferTo_advance {a : Byte} {u : PcUpdate} {s : State} (h : (advance u s).pc = a) :
    TransferTo a s (advance u s) :=
  ⟨h, sameRegs_of_regs_eq (advance_regs u s), noDataAccess_advance u s, pipelineMoved_advance (executePhase_refl s) u⟩

/-- Settles O18: the update assigns the register form's second operand x[B]. -/
theorem jmpAssignsPc : Obligations.JmpAssignsPc := fun _ s hop =>
  ⟨_, _, decode_jmp hop, rfl, transferTo_advance (advance_assign_pc _ s)⟩

/-- BNN's condition is that bit 7 is clear (42_control.md R122). -/
theorem nonNegative_iff (v : Byte) : nonNegative v = true ↔ v.getLsbD 7 = false := by
  simp only [nonNegative, Bool.not_eq_true']

/-- Settles O19: the update adds field B or 1, as the ungated first operand x[A] has bit 7 clear or set. -/
theorem bnnBranchesOnClearSign : Obligations.BnnBranchesOnClearSign := by
  intro w s hop
  refine ⟨_, _, decode_bnn hop, rfl, transferTo_advance ?_⟩
  rw [advance_add_pc, firstOperand, if_pos rfl]
  simp only [nonNegative_iff, sext8_eq_signExtend]
  split
  · rfl
  · rfl

/-- Settles O20: the update adds field B, sign-extended. -/
theorem jrAddsIncrement : Obligations.JrAddsIncrement := by
  intro w s hop
  refine ⟨_, _, decode_jr hop, rfl, transferTo_advance ?_⟩
  rw [advance_add_pc, sext8_eq_signExtend]

/-! ### The pc under every instruction -/

/-- A load advances pc by one. -/
theorem pc_loadFrom {a : Byte} {d : Operands} {s t : State} (h : loadFrom a d s = .next t) : t.pc = s.pc + 1#8 := by
  cases h
  rw [advance_add_pc, writeBack_pc, memRead_pc]

/-- A store advances pc by one. -/
theorem pc_storeTo {a : Byte} {d : Operands} {s t : State} (h : storeTo a d s = .next t) : t.pc = s.pc + 1#8 := by
  cases h
  rw [advance_add_pc, memWrite_pc]

/-- An ALU instruction advances pc by one (43_alu.md R131). -/
theorem pc_finishAlu {d : Operands} {v : Byte} {s t : State} (h : finishAlu d v s = .next t) : t.pc = s.pc + 1#8 := by
  cases h
  rw [advance_add_pc, writeBack_pc]

/-- Every instruction but the reserved one and the three transfers advances pc by one (42_control.md R124). -/
theorem exec_pc_cases {i : Instr} {s t : State} (h : exec i s = .next t) :
    i.op ∈ [0x4#4, 0x5#4, 0x6#4, 0x7#4] ∨ t.pc = s.pc + 1#8 := by
  cases i with
  | rsv4 d | jmp d | bnn d | jr d => exact .inl (by simp [Instr.op, Instr.row])
  | ld d | ldx d => exact .inr (pc_loadFrom h)
  | st d | stx d => exact .inr (pc_storeTo h)
  | add d | nor d | addi d | nori d | addh d | norh d | addih d | norih d => exact .inr (pc_finishAlu h)

/-- Settles O43, by what a step that is not blocked executes: a warm-up, which advances pc by one, or an instruction. -/
theorem onlyTransfersMovePc : Obligations.OnlyTransfersMovePc := by
  intro s t h hpc
  cases hf : s.fatal with
  | true => exact .inl rfl
  | false =>
    cases hdl : s.dl with
    | none =>
      rw [step_of_emptyLatch hf hdl] at h
      cases h
      exact absurd (advance_add_pc _ s) hpc
    | some i =>
      rw [step_of_latch hf hdl] at h
      exact .inr ⟨i, rfl, (exec_pc_cases h).resolve_right hpc⟩

/-! ### The reserved opcode -/

/-- Settles O17: the meaning of RSV4 is `raiseFatal` and no later phase. -/
theorem rsv4RaisesFatal : Obligations.Rsv4RaisesFatal := fun _ _ hop => ⟨_, decode_rsv4 hop, rfl⟩

end Sys2Proof.Machine

/-! PROOFS of the family 43_alu.md: what each ALU operation computes, what an instruction does with a result, and the eight
instructions, each from its result and its operands. -/

namespace Sys2Proof.Machine

/-! ### The ALU's operations (43_alu.md R130) -/

/-- The sum is the exact one, wrapped. -/
theorem aluAdd_eq_ofNat (a b : Byte) : aluAdd a b = BitVec.ofNat 8 (a.toNat + b.toNat) := by
  rw [aluAdd, BitVec.ofNat_add, BitVec.ofNat_toNat, BitVec.ofNat_toNat, BitVec.setWidth_eq, BitVec.setWidth_eq]

/-- The sum with a sign-extended immediate is the exact one with its signed value, wrapped. -/
theorem aluAdd_sext8_eq_ofInt (a : Byte) (b : Nibble) : aluAdd a (sext8 b) = BitVec.ofInt 8 (a.toNat + b.toInt) := by
  rw [aluAdd, BitVec.ofInt_add, BitVec.ofInt_natCast, BitVec.ofNat_toNat, BitVec.setWidth_eq, sext8_eq_signExtend,
    BitVec.signExtend]

/-- Halving moves every bit one place down and keeps bit 7: the arithmetic shift (00_scope.md R13). -/
theorem asr1_eq_sshiftRight (v : Byte) : asr1 v = v.sshiftRight 1 := by
  apply BitVec.eq_of_getLsbD_eq
  intro i hi
  rw [asr1, BitVec.getLsbD_or, BitVec.getLsbD_ushiftRight, BitVec.getLsbD_and, BitVec.getLsbD_sshiftRight]
  rcases Nat.lt_succ_iff_lt_or_eq.mp hi with hlow | rfl
  · have hmask : ∀ k < 7, (0x80#8).getLsbD k = false := by decide
    simp [hmask i hlow, show ¬8 ≤ i by omega, show 1 + i < 8 by omega]
  · simp [BitVec.msb_eq_getLsbD_last]

/-- Behind the gate of v1 only the other operand counts. -/
theorem aluNor_zero (b : Byte) : aluNor 0#8 b = ~~~b := by
  rw [aluNor, BitVec.zero_or]

/-! ### Operands and result -/

/-- An ungated first read goes through field A (40_pipeline.md R93). -/
theorem firstOperand_ungated {d : Operands} (h : d.readFirst = true) (s : State) : firstOperand d s = regRead d.ra s := by
  rw [firstOperand, if_pos h]

/-- The end of every ALU instruction (43_alu.md R131), for a descriptor that writes back through field A of the word. -/
theorem aluStep_finishAlu {w : Word} {d : Operands} {v r : Byte} {s t : State} (hra : d.ra = fieldA w)
    (hwb : d.writeBack = true) (hv : v = r) (h : finishAlu d v s = .next t) : AluStep w r s t := by
  obtain ⟨hreg, hdata⟩ := writesOnly_finishAlu hwb h
  have hpc := pc_finishAlu h
  cases h
  exact ⟨hra ▸ hv ▸ hreg, hdata, hpc, pipelineMoved_advance (executePhase_writeBack (executePhase_refl s) d v) _⟩

/-! ### The register form -/

/-- Settles O21: both operands are registers. -/
theorem addWritesWrappedSum : Obligations.AddWritesWrappedSum := by
  intro w s hop
  refine ⟨_, _, decode_add hop, rfl, aluStep_finishAlu rfl rfl ?_ rfl⟩
  rw [aluAdd_eq_ofNat, firstOperand_ungated rfl, secondOperand]

/-- Settles O22. -/
theorem norWritesComplementOfOr : Obligations.NorWritesComplementOfOr := by
  intro w s hop
  refine ⟨_, _, decode_nor hop, rfl, aluStep_finishAlu rfl rfl ?_ rfl⟩
  rw [aluNor, firstOperand_ungated rfl, secondOperand]

/-- Settles O25: the sum is wrapped before it is halved. -/
theorem addhHalvesWrappedSum : Obligations.AddhHalvesWrappedSum := by
  intro w s hop
  refine ⟨_, _, decode_addh hop, rfl, aluStep_finishAlu rfl rfl ?_ rfl⟩
  rw [asr1_eq_sshiftRight, aluAdd, firstOperand_ungated rfl, secondOperand]

/-- Settles O26. -/
theorem norhHalvesNor : Obligations.NorhHalvesNor := by
  intro w s hop
  refine ⟨_, _, decode_norh hop, rfl, aluStep_finishAlu rfl rfl ?_ rfl⟩
  rw [asr1_eq_sshiftRight, aluNor, firstOperand_ungated rfl, secondOperand]

/-! ### The immediate form -/

/-- Settles O23: the immediate is field B, sign-extended. -/
theorem addiAddsImmediate : Obligations.AddiAddsImmediate := by
  intro w s hop
  refine ⟨_, _, decode_addi hop, rfl, aluStep_finishAlu rfl rfl ?_ rfl⟩
  rw [aluAdd_sext8_eq_ofInt, firstOperand_ungated rfl]

/-- Settles O24. -/
theorem noriNorsImmediate : Obligations.NoriNorsImmediate := by
  intro w s hop
  refine ⟨_, _, decode_nori hop, rfl, aluStep_finishAlu rfl rfl ?_ rfl⟩
  rw [aluNor, firstOperand_ungated rfl, sext8_eq_signExtend]

/-- Settles O27: the sum is wrapped before it is halved. -/
theorem addihHalvesImmediateSum : Obligations.AddihHalvesImmediateSum := by
  intro w s hop
  refine ⟨_, _, decode_addih hop, rfl, aluStep_finishAlu rfl rfl ?_ rfl⟩
  rw [asr1_eq_sshiftRight, aluAdd, firstOperand_ungated rfl, sext8_eq_signExtend]

/-- Settles O28: opcode 0xF gates the read of v1. -/
theorem norihIgnoresOldRegister : Obligations.NorihIgnoresOldRegister := by
  intro w s hop
  refine ⟨_, _, decode_norih hop, rfl, aluStep_finishAlu rfl rfl ?_ rfl⟩
  rw [asr1_eq_sshiftRight, firstOperand_gated rfl, aluNor_zero, sext8_eq_signExtend]

end Sys2Proof.Machine

/-! PROOFS of the family 60_exceptions.md: what holds along every run, and that nothing but a port index that names no port stops
one. -/

namespace Sys2Proof.Machine

/-! ### Runs keep what their actions keep -/

/-- A property that every action keeps is kept by every finite sequence of actions (60_exceptions.md R167). -/
theorem runActions_keeps {P : State → Prop} (hkeep : ∀ act s t, P s → perform act s = .next t → P t) {acts : List Action}
    {s t : State} (hs : P s) (h : runActions acts s = .next t) : P t := by
  induction acts generalizing s with
  | nil =>
    cases h
    exact hs
  | cons act acts ih =>
    obtain ⟨m, hperform, hrun⟩ := runActions_cons h
    exact ih (hkeep act s m hs hperform) hrun

/-- Settles O41: construction has the invariant (O40) and every action keeps it (O60). -/
theorem reachableStatesHaveInvariant : Obligations.ReachableStatesHaveInvariant := by
  rintro t ⟨image, acts, himage, hrun⟩
  exact runActions_keeps actionKeepsInvariant (invariant_construct himage) hrun

/-! ### Every action on a port completes -/

/-- Executing any instruction answers a next state, the reserved opcode included (60_exceptions.md R151). -/
theorem exec_completes (i : Instr) (s : State) : ∃ t, exec i s = .next t := by
  rcases exec_cases i s with ⟨-, hfatal⟩ | ⟨-, u, m, hnext, -⟩
  · exact ⟨_, hfatal⟩
  · exact ⟨_, hnext⟩

/-- A step answers a next state from every state: no step stops with a fault or a refusal (60_exceptions.md R150). -/
theorem step_completes (s : State) : ∃ t, step s = .next t := by
  cases hf : s.fatal with
  | true => exact ⟨s, step_of_fatal hf⟩
  | false =>
    cases hd : s.dl with
    | none => exact ⟨_, step_of_emptyLatch hf hd⟩
    | some i =>
      rw [step_of_latch hf hd]
      exact exec_completes i s

/-- The indices 0 and 1 name the two ports (20_memory.md R60). -/
theorem exists_hostIndex {n : Nat} (h : n = 0 ∨ n = 1) : ∃ p, n = hostIndex p := by
  rcases h with rfl | rfl
  · exact ⟨.port0, rfl⟩
  · exact ⟨.port1, rfl⟩

/-- A host operation in the action uses a port index that the spec allows (20_memory.md R60); step and reset use none. -/
def Action.UsesPorts : Action → Prop
  | .portWritable p | .portReadable p | .portWrite p _ | .portRead p => p = 0 ∨ p = 1
  | .step | .reset => True

/-- An action on the two ports answers a next state: a step and a reset always do, and each host operation does on its port. -/
theorem perform_completes {act : Action} (h : act.UsesPorts) (s : State) : ∃ t, perform act s = .next t := by
  cases act with
  | step => exact step_completes s
  | reset => exact ⟨_, rfl⟩
  | portWritable n =>
    obtain ⟨p, rfl⟩ := exists_hostIndex h
    simp [perform, portWritable_hostIndex, continueWith]
  | portReadable n =>
    obtain ⟨p, rfl⟩ := exists_hostIndex h
    simp [perform, portReadable_hostIndex, continueWith]
  | portWrite n b =>
    obtain ⟨p, rfl⟩ := exists_hostIndex h
    exact ⟨_, portWrite_hostIndex p b s⟩
  | portRead n =>
    obtain ⟨p, rfl⟩ := exists_hostIndex h
    simp [perform, portRead_hostIndex, continueWith]

/-- A run whose first action answers `m` goes on from `m`. -/
theorem runActions_cons_of_perform {act : Action} {s m : State} (h : perform act s = .next m) (acts : List Action) :
    runActions (act :: acts) s = runActions acts m := by
  simp [runActions, h]

/-- Settles O48, by induction on the actions: each completes, and so does the run from the state it leaves. -/
theorem runsComplete : Obligations.RunsComplete := by
  intro acts
  induction acts with
  | nil => exact fun s _ => ⟨s, rfl⟩
  | cons act acts ih =>
    intro s hports
    rw [List.forall_mem_cons] at hports
    obtain ⟨hact, hacts⟩ := hports
    obtain ⟨m, hperform⟩ := perform_completes (act := act) hact s
    rw [runActions_cons_of_perform hperform]
    exact ih m hacts

end Sys2Proof.Machine

/-! PROOFS of the family 70_reset_and_hazards.md: a stored byte reaches the load of the next step and the host, and a host byte
reaches a load. A register read sees the state at the start of its own step, so each is one data access after another. -/

namespace Sys2Proof.Machine

/-! ### A step that loads or stores -/

section
variable {w : Word} {s : State}

/-- With a LD in the decode latch a step loads from the address in x[B] (41_load_store.md R110). -/
theorem step_ld (hf : s.fatal = false) (hdl : s.dl = some (decode w)) (hop : fieldOp w = 0x0#4) :
    step s = loadFrom (regRead (fieldB w) s) ⟨fieldA w, fieldB w, 0#8, true, true⟩ s := by
  rw [step_of_latch hf hdl, decode_ld hop]
  rfl

/-- With a ST in the decode latch a step stores at the address in x[B] (41_load_store.md R111). -/
theorem step_st (hf : s.fatal = false) (hdl : s.dl = some (decode w)) (hop : fieldOp w = 0x1#4) :
    step s = storeTo (regRead (fieldB w) s) ⟨fieldA w, fieldB w, 0#8, true, false⟩ s := by
  rw [step_of_latch hf hdl, decode_st hop]
  rfl

/-- A LD's step completes and loads into x[A]. -/
theorem loadEffect_step (hf : s.fatal = false) (hdl : s.dl = some (decode w)) (hop : fieldOp w = 0x0#4) :
    ∃ t, step s = .next t ∧ LoadEffect (fieldA w) (regRead (fieldB w) s) s t :=
  ⟨_, step_ld hf hdl hop, loadEffect_loadFrom rfl rfl⟩

/-- A ST's step completes and stores x[A]. -/
theorem storeEffect_step (hwf : Memory.wf s.mem) (hf : s.fatal = false) (hdl : s.dl = some (decode w))
    (hop : fieldOp w = 0x1#4) :
    ∃ t, step s = .next t ∧ StoreEffect (regRead (fieldB w) s) (regRead (fieldA w) s) s t :=
  ⟨_, step_st hf hdl hop, storeEffect_storeTo hwf rfl⟩

end

/-- A register write seen from before a transition that kept the registers. -/
theorem SameRegs.trans_onlyReg {i : Nibble} {v : Byte} {s m t : State} (h : SameRegs s m) (h' : OnlyReg i v m t) :
    OnlyReg i v s t := fun j => by
  rw [h' j, h j]

/-! ### From a store to the next load (70_reset_and_hazards.md R176) -/

/-- A RAM cell that a store has set reads as the stored byte. -/
theorem memRead_of_storedAt {a v : Byte} {s t : State} (h : StoredAt a v s t) (ha : 0xF0 ≤ a.toNat) :
    (memRead a t).1 = v := by
  obtain ⟨-, hcell, -⟩ := h
  rw [memRead_ram ha]
  exact hcell ha

/-- Settles O38: the store keeps the registers, so the load, decoded meanwhile, reads the cell that the store has set. -/
theorem storeSeenByNextLoad : Obligations.StoreSeenByNextLoad := by
  intro s w1 w2 hwf hf hst hld hdl hfl haddr ha
  obtain ⟨t, hstep, hstored, hregs, -, hpipe⟩ := storeEffect_step hwf hf hdl hst
  obtain ⟨u, hstep', honly, -⟩ := loadEffect_step (hpipe.fatal.trans hf) (hpipe.decoded w2 hfl) hld
  rw [hregs, haddr, memRead_of_storedAt hstored ha] at honly
  exact ⟨t, u, hstep, hstep', hregs.trans_onlyReg honly⟩

/-! ### Between the host and the core (70_reset_and_hazards.md R178) -/

/-- A read of the data-in address answers the byte in the inbound slot and clears the slot (20_memory.md R44). -/
theorem memRead_inbound {p : PortId} {b : Byte} {s : State} (h : (s.port p).inbound = some b) :
    memRead (dataInAddress p) s = (b, s.setPort p { s.port p with inbound := none }) :=
  (memRead_dataInAddress p s).trans (takeInbound_full h)

/-- Settles O53: the host's write keeps the latches and registers, so the load reads the byte, which leaves the slot empty. -/
theorem hostByteReachesLoad : Obligations.HostByteReachesLoad := by
  intro p b w s hf hdl hop haddr
  obtain ⟨hwrites, -⟩ := portTransfers p s
  obtain ⟨t, hwrite, hframe, hport⟩ := hwrites b
  have hregs : SameRegs s t := sameRegs_of_regs_eq hframe.regs
  obtain ⟨u, hstep, honly, -, hports, hevents, -⟩ :=
    loadEffect_step (hframe.fatal.trans hf) (hframe.dl.trans hdl) hop
  have hread := memRead_inbound (p := p) (b := b) (s := t) (by rw [hport])
  rw [hregs, haddr, hread] at honly hports hevents
  refine ⟨t, u, hwrite, hstep, hregs.trans_onlyReg honly, ?_, ?_⟩
  · rw [portWritable_hostIndex, hports, port_setPort_self, Option.isNone_none]
  · rw [hevents, setPort_events, hframe.events]

/-- A store at a data-out address leaves the byte in the outbound slot, whatever form the RAM is in (20_memory.md R51). -/
theorem outbound_storeTo {p : PortId} {d : Operands} {s t : State} (h : storeTo (dataOutAddress p) d s = .next t) :
    (t.port p).outbound = some (firstOperand d s) := by
  cases h
  rw [port_advance, memWrite_dataOutAddress, putOutbound, port_setPort_self]

/-- A ST's step to a data-out address completes and leaves x[A] in the outbound slot. -/
theorem outbound_step {p : PortId} {w : Word} {s : State} (hf : s.fatal = false) (hdl : s.dl = some (decode w))
    (hop : fieldOp w = 0x1#4) (haddr : regRead (fieldB w) s = dataOutAddress p) :
    ∃ t, step s = .next t ∧ (t.port p).outbound = some (regRead (fieldA w) s) := by
  rw [step_st hf hdl hop, haddr]
  exact ⟨_, rfl, outbound_storeTo rfl⟩

/-- Settles O54: the host takes the byte that the store left in the slot, which empties it. -/
theorem storedByteReachesHost : Obligations.StoredByteReachesHost := by
  intro p w s hf hdl hop haddr
  obtain ⟨t, hstep, hout⟩ := outbound_step hf hdl hop haddr
  have hread := portRead_hostIndex p t
  rw [hout] at hread
  refine ⟨t, _, hstep, hread, ?_⟩
  rw [portReadable_hostIndex, port_setPort_self, Option.isSome_none]

end Sys2Proof.Machine
